-- ==== Sys2Proof/Word.lean ====
section
/-! DEFINITION. The value types of the hardware: the 64-bit word (00_scope R6), the byte, the 10-bit micro-operation
word (30_encoding R71). Bit 63 of a word is its most significant bit (00_scope R7), which is `BitVec`'s numbering.
Addition of `Word`s is addition modulo 2^64 (00_scope R6, R8). -/
namespace Sys2Proof

/-- A word: an unsigned integer in the range 0 to 2^64 - 1 (00_scope R6). -/
abbrev Word := BitVec 64

/-- A byte of `M` or `OUT` (10_state R24, R25). -/
abbrev Byte := BitVec 8

/-- An encoded micro-operation, format U (30_encoding R71). -/
abbrev MicroWord := BitVec 10

end Sys2Proof
end

