-- ==== Sys2Proof/Syntax.lean ====
section
/-! DEFINITION. The instructions of the hardware: one constructor per row of spec/opcode_table.json. -/
namespace Sys2Proof

/-- The seven micro-operations (30_encoding R72) and the host command START (30_encoding R75).
The operand of `exp` and `rnd` is the 7-bit `idx` field, used as a natural number (30_encoding R73). -/
inductive Instr where
  /-- Assemble the 16-word message block (40 R90). -/
  | asm
  /-- Compute schedule word `i` (41 R100). -/
  | exp (i : BitVec 7)
  /-- Load the working registers with the initial hash value (42 R110). -/
  | init
  /-- Compression round `r` (42 R111). -/
  | rnd (r : BitVec 7)
  /-- Davies-Meyer feed-forward (43 R125). -/
  | fin
  /-- Serialize the output words into `OUT` (43 R126). -/
  | ser
  /-- End the call (44 R137). -/
  | halt
  /-- Begin a call: the host's write of 1 to `CTRL` (44 R138). -/
  | start
  deriving DecidableEq, Repr

end Sys2Proof
end

