-- ==== Sys2Proof/WellFormed.lean ====
section
/-! DEFINITION. Which instructions exist: the legal ranges of the operand (30_encoding R72, R74). -/
namespace Sys2Proof

/-- `idx` is legal for EXP: 16 to 79 (30_encoding R72). -/
abbrev expIndexOk (i : BitVec 7) : Prop := 16 ≤ i.toNat ∧ i.toNat ≤ 79

/-- `idx` is legal for RND: 0 to 79 (30_encoding R72). -/
abbrev rndIndexOk (r : BitVec 7) : Prop := r.toNat ≤ 79

/-- An instruction with a legal operand. The five other micro-operations and START have none. -/
def Instr.wf : Instr → Bool
  | .exp i => decide (expIndexOk i)
  | .rnd r => decide (rndIndexOk r)
  | .asm | .init | .fin | .ser | .halt | .start => true

end Sys2Proof
end

