-- ==== Sys2Proof/Decode.lean ====
section
/-! DEFINITION. The decoder, total on every 10-bit word and every CTRL value, refusing by name, and the encoder
(30_encoding R71 to R75, 60_exceptions R154). A `UROM` entry is read whole by its index (20_memory R53), so a word has
no byte order; START is not a word of `UROM` but a write to the 1-bit register `CTRL` (30_encoding R75). -/
namespace Sys2Proof

/-- What can be decoded: a format U word, or a value written to `CTRL` (format C). -/
inductive Code where
  | micro (u : MicroWord)
  | ctrl (b : BitVec 1)
  deriving DecidableEq, Repr

/-- Why a code is no instruction. -/
inductive DecodeError where
  /-- One of the 875 illegal words of 30_encoding R74 (`IllegalMicroOp`, 60_exceptions R154). -/
  | illegalMicroOp (u : MicroWord)
  /-- A write of 0 to `CTRL`: no operation (30_encoding R75, 44 R143). -/
  | noCommand
  deriving DecidableEq, Repr

/-- `op = u[9:7]` (30_encoding R71). -/
def opField (u : MicroWord) : BitVec 3 := u.extractLsb' 7 3

/-- `idx = u[6:0]` (30_encoding R71). -/
def idxField (u : MicroWord) : BitVec 7 := u.extractLsb' 0 7

/-- A micro-operation without operand: legal only with `idx = 0` (30_encoding R73). -/
def withoutOperand (u : MicroWord) (i : Instr) : Except DecodeError Instr :=
  if idxField u = 0 then .ok i else .error (.illegalMicroOp u)

/-- The opcode map of 30_encoding R72 over a format U word; every word outside R74's legal ones is refused by name
(log 19). -/
def decodeMicro (u : MicroWord) : Except DecodeError Instr :=
  match (opField u).toNat with
  | 0 => withoutOperand u .asm
  | 1 => if expIndexOk (idxField u) then .ok (.exp (idxField u)) else .error (.illegalMicroOp u)
  | 2 => withoutOperand u .init
  | 3 => if rndIndexOk (idxField u) then .ok (.rnd (idxField u)) else .error (.illegalMicroOp u)
  | 4 => withoutOperand u .fin
  | 5 => withoutOperand u .ser
  | 6 => withoutOperand u .halt
  | _ => .error (.illegalMicroOp u)

/-- The host's write to `CTRL`: 1 is START, 0 is no operation (30_encoding R75). -/
def decodeCtrl (b : BitVec 1) : Except DecodeError Instr :=
  if b = 1#1 then .ok .start else .error .noCommand

/-- The decoder, over both formats. -/
def decode : Code → Except DecodeError Instr
  | .micro u => decodeMicro u
  | .ctrl b => decodeCtrl b

/-- Format U from its two fields (30_encoding R71). -/
def microWord (op : BitVec 3) (idx : BitVec 7) : MicroWord := op ++ idx

/-- The encoder, from the pattern column of 30_encoding R72 and from R75. -/
def encode : Instr → Code
  | .asm => .micro (microWord 0b000#3 0#7)
  | .exp i => .micro (microWord 0b001#3 i)
  | .init => .micro (microWord 0b010#3 0#7)
  | .rnd r => .micro (microWord 0b011#3 r)
  | .fin => .micro (microWord 0b100#3 0#7)
  | .ser => .micro (microWord 0b101#3 0#7)
  | .halt => .micro (microWord 0b110#3 0#7)
  | .start => .ctrl 1#1

/-- The code of a row of spec/opcode_table.json given as a number of `nbits` bits: the one row of format C (START) has
1 bit, in whole bytes 8; the rows of format U have 10 bits, in whole bytes 16 (log 10). -/
def tableCode (nbits w : Nat) : Option Code :=
  if nbits ≤ 8 then
    if w < 2 then some (.ctrl (BitVec.ofNat 1 w)) else none
  else if w < 1024 then some (.micro (BitVec.ofNat 10 w)) else none

/-- What the decoder reads from an instruction whose bits are `w`; none where it refuses. -/
def decodeTableWord (nbits w : Nat) : Option Instr :=
  match tableCode nbits w with
  | none => none
  | some c =>
    match decode c with
    | .ok i => some i
    | .error _ => none

end Sys2Proof
end

