-- ==== Sys2Proof/Config.lean ====
section
/-! DEFINITION. What the spec leaves to the implementation. The constant tables `IV`, `K`, the padding literals and
`UROM`, which the spec fixes, are in Machine/Tables.lean. -/
namespace Sys2Proof

/-- What a word of `W`, `x` or `HV` that nothing has written holds: 10_state R34 lets a model give any fixed value, "for
example zero". DESIGN CHOICE, unsafe (log 1). -/
def Config.unwrittenWord : Word := 0#64

/-- `STEP_TIME` (70 R177, R179): the duration of a step. It may depend on the micro-operation and never on data, which
its type says; its values are open. A free value: no body. No state or result of the model depends on it (log 15). -/
opaque Config.stepTime : Instr → Nat

end Sys2Proof
end

