-- ==== Sys2Proof/Machine/State.lean ====
section
/-! DEFINITION. The state of one CORE instance (10_state R20), its validity marks (10_state R34), and the inputs from
outside it (the host, the environment's reset) as plain data. -/
namespace Sys2Proof.Machine

/-- An element of the state that carries a validity mark (10_state R34), by name and index (60 R153). -/
inductive Element where
  | m (k : Nat)
  | w (i : Nat)
  | x (i : Nat)
  | hv (i : Nat)
  | out (k : Nat)
  deriving DecidableEq, Repr

/-- Why the machine stops. All three are the spec's model-only events or values never held: none is an event of the
hardware (60 R151). -/
inductive Fault where
  /-- `UnwrittenRead` (60 R153), raised by ASM when it reads a byte of `M` marked unwritten (70 R172), and by EXP,
  RND, FIN, SER when they read a word marked unwritten and the `fault` treatment of 10_state R34 is selected. Safe: it never hides a behaviour of the hardware. -/
  | unwrittenRead (e : Element)
  /-- `IllegalMicroOp` (60 R154) with the word and the `pc` (60 R152), raised by the sequencer's decode of an illegal
  word, and by EXP and RND given an operand outside its legal range. Safe: unreachable from `UROM`. -/
  | illegalMicroOp (u : MicroWord) (pc : BitVec 8)
  /-- Raised by the sequencer's fetch at a `pc` of 149 to 255, where `UROM` has no entry; 10_state R26: these values
  are never held. Safe: unreachable (log 6). -/
  | noMicroOp (pc : BitVec 8)
  deriving DecidableEq, Repr

/-- Why an instruction has no meaning. -/
inductive Refusal where
  /-- An instruction not modelled yet, by its mnemonic. Raised by no arm of `exec`: every instruction has its meaning.
  Safe. -/
  | notModelled (mnemonic : String)
  deriving DecidableEq, Repr

/-- One word of a register file: the value it holds and its validity mark (10_state R34). -/
structure Marked where
  value : Word
  written : Bool
  deriving DecidableEq, Repr

/-- A word that nothing has written: it is marked unwritten and holds the one fixed value 10_state R34 lets a model
give it (DESIGN CHOICE, unsafe, log 1). -/
def Marked.unset : Marked := ⟨Config.unwrittenWord, false⟩

/-- A byte space (`M` or `OUT`): the bytes that are marked written, in rising order of address. An address that is not
listed holds an unwritten byte, which has no value (10_state R34, R36). -/
abbrev Memory := List Host.Cell

/-- The two treatments 10_state R34 gives a read of an unwritten word of `W`, `x` or `HV` by a micro-operation. A read of
an unwritten byte of `M` by ASM faults under both (70 R172). -/
inductive UnwrittenReads where
  /-- The element holds a fixed value and the read gives it: "A model may instead give unwritten elements any fixed
  value". -/
  | held
  /-- The step faults and names the element: "a model faults it". -/
  | fault
  deriving DecidableEq, Repr

/-- Everything the host can do to the block (44 R138 to R143), the accesses without effect among them. -/
inductive HostOp where
  /-- `HostReadStatus()` (44 R139). -/
  | readStatus
  /-- `HostWriteM(k, b)` (44 R140); an index outside 0 to 95 cannot be expressed. -/
  | writeM (k : Fin 96) (b : Byte)
  /-- `HostReadM(k)` (44 R141). -/
  | readM (k : Fin 96)
  /-- `HostReadOut(k)` (44 R142). -/
  | readOut (k : Fin 64)
  /-- A write to `CTRL` (10_state R28): 1 is the command START (44 R138), 0 has no effect (44 R143). -/
  | writeCtrl (b : BitVec 1)
  /-- A read of `CTRL`: returns 0 (44 R143). -/
  | readCtrl
  /-- A write to `STATUS`: no effect (10_state R27, 44 R143). -/
  | writeStatus (v : BitVec 2)
  /-- A write to `OUT`: no effect (44 R143). -/
  | writeOut (k : Fin 64) (b : Byte)
  deriving DecidableEq, Repr

/-- One turn of one agent: what happens next at the block's boundary (20 R60, 93 U11). -/
inductive Event where
  | host (op : HostOp)
  /-- The sequencer's turn (44 R135). -/
  | sequencer
  /-- The environment applies reset (70 R170). -/
  | reset
  deriving DecidableEq, Repr

/-- What a host access gives back. -/
inductive HostReply where
  /-- `STATUS[1:0]` = (DONE, BUSY) (44 R139). -/
  | status (v : BitVec 2)
  | byte (b : Byte)
  | ctrl (v : BitVec 1)
  /-- The model refuses the access (log 11): no value is returned and the machine goes on (60 R153). -/
  | refused (e : Element)
  deriving DecidableEq, Repr

/-- The complete state of one CORE instance: exactly the eight items of 10_state R20, an element with its validity mark
(10_state R34) and `STATUS` as its two bits. -/
structure Block where
  /-- The message space `M` (10_state R24). -/
  m : Memory
  /-- The message schedule `W` (10_state R22). -/
  w : Vector Marked 80
  /-- The working registers `x`, aliases a to h (10_state R21). -/
  x : Vector Marked 8
  /-- The output words `HV` (10_state R23). -/
  hv : Vector Marked 8
  /-- The output space `OUT` (10_state R25). -/
  out : Memory
  /-- The step counter (10_state R26). -/
  pc : BitVec 8
  /-- `STATUS.BUSY` (10_state R27). -/
  busy : Bool
  /-- `STATUS.DONE` (10_state R27). -/
  done : Bool
  deriving DecidableEq, Repr

/-- One CORE instance and, beside it, what is not the block's: the model's treatment of unwritten reads (log 2) and the
outside world, which acts on the block at its boundary (log 8). -/
structure State extends Block where
  /-- Which treatment of 10_state R34 applies; no step changes it (log 2). -/
  unwrittenReads : UnwrittenReads
  /-- The events to come, oldest first; when it is empty every step is a turn of the sequencer (log 8). -/
  agenda : List Event
  /-- What the host got back, newest first. -/
  replies : List HostReply
  deriving DecidableEq, Repr

/-- The block right after reset (10_state R36): `BUSY`, `DONE` and `pc` are 0 and every element is marked unwritten. The
value an unwritten register holds is a DESIGN CHOICE (log 1). -/
def Block.reset : Block where
  m := []
  w := Vector.replicate 80 Marked.unset
  x := Vector.replicate 8 Marked.unset
  hv := Vector.replicate 8 Marked.unset
  out := []
  pc := 0#8
  busy := false
  done := false

/-- The machine right after reset: the block of 10_state R36. The treatment (`held`, log 2) and the empty agenda (log 8)
are DESIGN CHOICES. -/
def State.reset : State where
  toBlock := Block.reset
  unwrittenReads := .held
  agenda := []
  replies := []

end Sys2Proof.Machine
end

