-- ==== Sys2Proof/Machine/Operands.lean ====
section
/-! DEFINITION. The word operations and operand forms every micro-operation computes with (00_scope R7 to R11), the
schedule and round formulas (41 R100, 42 R111), and the elements each micro-operation reads (70 R176). -/
namespace Sys2Proof.Machine

/-- `byte_k(v) = v[63-8k : 56-8k]`, k = 0 to 7 from the most significant (00_scope R7, R9). -/
def byteOf (k : Nat) (v : Word) : Byte := v.extractLsb' (56 - 8 * k) 8

/-- `be64(b0, ..., b7)`: the big-endian word of eight bytes (00_scope R9). -/
def be64 (b0 b1 b2 b3 b4 b5 b6 b7 : Byte) : Word :=
  BitVec.ofNat 64 (b0.toNat * 2 ^ 56 + b1.toNat * 2 ^ 48 + b2.toNat * 2 ^ 40 + b3.toNat * 2 ^ 32
    + b4.toNat * 2 ^ 24 + b5.toNat * 2 ^ 16 + b6.toNat * 2 ^ 8 + b7.toNat)

/-- The right rotation of 00_scope R8: `(x >> n) + ((x mod 2^n) * 2^(64-n))`, for 0 < n < 64. -/
def rotr (x : Word) (n : Nat) : Word := (x >>> n) ||| (x <<< (64 - n))

/-- `sigma0` (00_scope R11): two rotations and a shift. -/
def smallSigma0 (x : Word) : Word := rotr x 1 ^^^ rotr x 8 ^^^ (x >>> 7)

/-- `sigma1` (00_scope R11): two rotations and a shift. -/
def smallSigma1 (x : Word) : Word := rotr x 19 ^^^ rotr x 61 ^^^ (x >>> 6)

/-- `Sigma0` (00_scope R11): three rotations. -/
def bigSigma0 (x : Word) : Word := rotr x 28 ^^^ rotr x 34 ^^^ rotr x 39

/-- `Sigma1` (00_scope R11): three rotations. -/
def bigSigma1 (x : Word) : Word := rotr x 14 ^^^ rotr x 18 ^^^ rotr x 41

/-- `Ch` (00_scope R11). -/
def choose (x y z : Word) : Word := (x &&& y) ^^^ (~~~x &&& z)

/-- `Maj` (00_scope R11). -/
def majority (x y z : Word) : Word := (x &&& y) ^^^ (x &&& z) ^^^ (y &&& z)

/-- The schedule recurrence from the taps `W[i-16]`, `W[i-15]`, `W[i-7]`, `W[i-2]` (41 R100). -/
def expandWord (w16 w15 w7 w2 : Word) : Word := w16 + smallSigma0 w15 + w7 + smallSigma1 w2

/-- The eight working registers by their labels (10_state R21). -/
structure Regs where
  a : Word
  b : Word
  c : Word
  d : Word
  e : Word
  f : Word
  g : Word
  h : Word
  deriving DecidableEq, Repr

/-- Register number to label: `x[0]` to `x[7]` are a to h (10_state R21). -/
def Regs.get (r : Regs) : Nat → Word
  | 0 => r.a
  | 1 => r.b
  | 2 => r.c
  | 3 => r.d
  | 4 => r.e
  | 5 => r.f
  | 6 => r.g
  | _ => r.h

/-- `T1` of a round (42 R111). -/
def roundT1 (v : Regs) (k w : Word) : Word := v.h + bigSigma1 v.e + choose v.e v.f v.g + k + w

/-- `T2` of a round (42 R111). -/
def roundT2 (v : Regs) : Word := bigSigma0 v.a + majority v.a v.b v.c

/-- The register movement of a round (42 R111, R112), every right side taken before the step. -/
def roundRegs (v : Regs) (k w : Word) : Regs where
  a := roundT1 v k w + roundT2 v
  b := v.a
  c := v.b
  d := v.c
  e := v.d + roundT1 v k w
  f := v.e
  g := v.f
  h := v.g

/-- ASM reads all of `M` (40 R90). -/
def asmReads : List Element := (List.range 96).map Element.m

/-- EXP n reads its four taps (41 R100), named in the order the rule lists them. -/
def expReads (n : Nat) : List Element := [.w (n - 16), .w (n - 15), .w (n - 7), .w (n - 2)]

/-- All eight working registers. -/
def xReads : List Element := (List.range 8).map Element.x

/-- RND n reads the working registers and `W[n]` (42 R111). -/
def rndReads (n : Nat) : List Element := xReads ++ [.w n]

/-- FIN reads the working registers (43 R125). -/
def finReads : List Element := xReads

/-- SER reads all of `HV` (43 R126). -/
def serReads : List Element := (List.range 8).map Element.hv

end Sys2Proof.Machine
end

