-- ==== Sys2Proof/Machine/Ops.lean ====
section
/-! DEFINITION. The named operations over the byte spaces, the register files and the validity marks, and reset.
This hardware takes no exception: there is no trap entry and no return from one (60 R157, R158), so none is written. -/
namespace Sys2Proof.Machine

/-- The byte at an address, if one is listed: what an unlisted address reads as is "no value" (10_state R34, R36). -/
def Memory.read? : Memory → Nat → Option Byte
  | [], _ => none
  | c :: rest, k => if c.1 = k then some c.2 else Memory.read? rest k

/-- Store a byte and mark it written (10_state R34), keeping the addresses in rising order. -/
def Memory.write : Memory → Nat → Byte → Memory
  | [], k, b => [(k, b)]
  | c :: rest, k, b =>
    if k < c.1 then (k, b) :: c :: rest
    else if c.1 = k then (k, b) :: rest
    else c :: Memory.write rest k b

/-- The canonical form of a space of `size` bytes: addresses strictly rising, each inside the space. No value is what an
unlisted address reads as, so no entry can equal it. -/
abbrev Memory.wf (size : Nat) (m : Memory) : Prop :=
  m.Pairwise (fun c d => c.1 < d.1) ∧ ∀ c ∈ m, c.1 < size

/-- Eight written registers. -/
def written8 (f : Nat → Word) : Vector Marked 8 :=
  #v[⟨f 0, true⟩, ⟨f 1, true⟩, ⟨f 2, true⟩, ⟨f 3, true⟩, ⟨f 4, true⟩, ⟨f 5, true⟩, ⟨f 6, true⟩, ⟨f 7, true⟩]

/-- Element i of `W`, value and mark. No rule reads an index above 79 (20_memory R50; log 20). -/
def State.wElem (s : State) (i : Nat) : Marked := s.w.getD i Marked.unset

/-- Element i of `x`, value and mark. -/
def State.xElem (s : State) (i : Nat) : Marked := s.x.getD i Marked.unset

/-- Element i of `HV`, value and mark. -/
def State.hvElem (s : State) (i : Nat) : Marked := s.hv.getD i Marked.unset

/-- The value `W[i]` holds. -/
def State.wVal (s : State) (i : Nat) : Word := (s.wElem i).value

/-- The value `x[i]` holds. -/
def State.xVal (s : State) (i : Nat) : Word := (s.xElem i).value

/-- The value `HV[i]` holds. -/
def State.hvVal (s : State) (i : Nat) : Word := (s.hvElem i).value

/-- The byte `M[k]` as ASM reads it. An unwritten one has no value: ASM faults on it (70 R172), and the 0 that stands here
for it reaches no next state (log 3). -/
def State.mByte (s : State) (k : Nat) : Byte := (s.m.read? k).getD 0#8

/-- The working registers by label (10_state R21). -/
def State.regs (s : State) : Regs :=
  ⟨s.xVal 0, s.xVal 1, s.xVal 2, s.xVal 3, s.xVal 4, s.xVal 5, s.xVal 6, s.xVal 7⟩

/-- The validity mark of an element (10_state R34). -/
def State.isWritten (s : State) : Element → Bool
  | .m k => (s.m.read? k).isSome
  | .w i => (s.wElem i).written
  | .x i => (s.xElem i).written
  | .hv i => (s.hvElem i).written
  | .out k => (s.out.read? k).isSome

/-- A micro-operation may read an element that is marked written. An unwritten byte of `M` it may never read (70 R172);
an unwritten word it may read under the `held` treatment of 10_state R34 (log 2). -/
def State.mayRead (s : State) (e : Element) : Bool :=
  s.isWritten e ||
    match e with
    | .m _ => false
    | .w _ | .x _ | .hv _ | .out _ => decide (s.unwrittenReads = .held)

/-- The first element of a list of reads that the step faults on, if any (60 R153; log 5). -/
def State.faultingRead (s : State) (es : List Element) : Option Element := es.find? fun e => !s.mayRead e

/-- The end of a micro-operation that reads `es`: `UnwrittenRead` names the first of them that it may not read (60
R153), else
the step's writes happen together (20_memory R56). -/
def State.afterReads (s : State) (es : List Element) (t : State) : Host.Outcome State Fault Refusal :=
  match s.faultingRead es with
  | some e => .fault (.unwrittenRead e)
  | none => .next t

/-- `MemRead(M[a], 8)` (20_memory R51). -/
def State.memRead8 (s : State) (a : Nat) : Word :=
  be64 (s.mByte a) (s.mByte (a + 1)) (s.mByte (a + 2)) (s.mByte (a + 3))
    (s.mByte (a + 4)) (s.mByte (a + 5)) (s.mByte (a + 6)) (s.mByte (a + 7))

/-- `MemWrite(OUT[a], 8, v)` (20_memory R52). -/
def memWrite8 (o : Memory) (a : Nat) (v : Word) : Memory :=
  (List.range 8).foldl (fun o k => o.write (a + k) (byteOf k v)) o

/-- `W[i] <- v`. -/
def State.writeW (s : State) (i : Nat) (v : Word) : State := { s with w := s.w.setIfInBounds i ⟨v, true⟩ }

/-- Write all eight working registers at once. -/
def State.writeX (s : State) (f : Nat → Word) : State := { s with x := written8 f }

/-- Write all eight output words at once. -/
def State.writeHv (s : State) (f : Nat → Word) : State := { s with hv := written8 f }

/-- The eight `MemWrite`s of SER into an output space: word i at 8i (43 R126). -/
def serialize (o : Memory) (f : Nat → Word) : Memory :=
  (List.range 8).foldl (fun o i => memWrite8 o (8 * i) (f i)) o

/-- Write the eight output words `f 0` to `f 7` into `OUT` as 64 bytes (43 R126). -/
def State.writeOut (s : State) (f : Nat → Word) : State := { s with out := serialize s.out f }

/-- `pc <- pc + 1` (44 R146). -/
def State.advance (s : State) : State := { s with pc := s.pc + 1#8 }

/-- Mark every `W[i]`, `x[i]`, `HV[i]` and `OUT[k]` unwritten (44 R138): no value from before survives (log 4). -/
def State.unmarkData (s : State) : State :=
  { s with w := Block.reset.w, x := Block.reset.x, hv := Block.reset.hv, out := Block.reset.out }

/-- What the environment's reset does to the block (70 R170, R171): the state of 10_state R36. What is not the block's
stays (log 13). -/
def State.applyReset (s : State) : State := { s with toBlock := Block.reset }

end Sys2Proof.Machine
end

