-- ==== Sys2Proof/Machine/Assembly.lean ====
section
/-! DEFINITION. Message assembly and padding: ASM (spec/40). -/
namespace Sys2Proof.Machine

/-- `W` after the sixteen writes of ASM (40 R90): twelve big-endian words of `M` and the four padding literals
(40 R91). -/
def State.blockWords (s : State) : Vector Marked 80 :=
  ((((((List.range 12).foldl (fun v j => v.setIfInBounds j ⟨s.memRead8 (8 * j), true⟩) s.w).setIfInBounds
    12 ⟨pad12, true⟩).setIfInBounds 13 ⟨pad13, true⟩).setIfInBounds 14 ⟨pad14, true⟩).setIfInBounds 15 ⟨pad15, true⟩)

/-- The sixteen writes of ASM, which touch nothing but `W`. -/
def State.assembleBlock (s : State) : State := { s with w := s.blockWords }

/-- ASM (40 R90). -/
def execAsm (s : State) : Host.Outcome State Fault Refusal :=
  s.afterReads asmReads s.assembleBlock.advance

end Sys2Proof.Machine
end

