-- ==== Sys2Proof/Machine/Compression.lean ====
section
/-! DEFINITION. The 80-round compression engine: INIT and RND r (spec/42), in the uniform form (42 R115). -/
namespace Sys2Proof.Machine

/-- INIT (42 R110). -/
def execInit (s : State) : Host.Outcome State Fault Refusal := .next (s.writeX iv).advance

/-- RND r (42 R111). An operand above 79 is an illegal encoding (30 R74, 60 R154); the decoder never gives one
(log 7). -/
def execRnd (r : BitVec 7) (s : State) : Host.Outcome State Fault Refusal :=
  if rndIndexOk r then
    s.afterReads (rndReads r.toNat)
      (s.writeX (roundRegs s.regs (kConst r.toNat) (s.wVal r.toNat)).get).advance
  else .fault (.illegalMicroOp (microWord 0b011#3 r) s.pc)

end Sys2Proof.Machine
end

