-- ==== Sys2Proof/Machine/Flags.lean ====
section
/-! DEFINITION. The status bits. There is no arithmetic flag and no condition code (10_state R29): no micro-operation
but HALT touches a bit here. -/
namespace Sys2Proof.Machine

/-- `STATUS[1:0]` = (DONE, BUSY): `BUSY` is bit 0, `DONE` is bit 1 (10_state R27, 44 R139). -/
def State.status (s : State) : BitVec 2 := BitVec.ofBool s.done ++ BitVec.ofBool s.busy

/-- `BUSY <- 1`, `DONE <- 0` (44 R138). -/
def State.setRunning (s : State) : State := { s with busy := true, done := false }

/-- `BUSY <- 0`, `DONE <- 1` (44 R137). -/
def State.setFinished (s : State) : State := { s with busy := false, done := true }

end Sys2Proof.Machine
end

