-- ==== Sys2Proof/Machine/Control.lean ====
section
/-! DEFINITION. The end and the beginning of a call: HALT and START (spec/44). -/
namespace Sys2Proof.Machine

/-- HALT (44 R137): `pc` is left unchanged. -/
def execHalt (s : State) : Host.Outcome State Fault Refusal := .next s.setFinished

/-- START (44 R138): ignored while `BUSY = 1`; `M` is neither copied nor changed. -/
def execStart (s : State) : Host.Outcome State Fault Refusal :=
  if s.busy then .next s else .next { s.unmarkData.setRunning with pc := 0#8 }

end Sys2Proof.Machine
end

