-- ==== Sys2Proof/Machine/Finalization.lean ====
section
/-! DEFINITION. Davies-Meyer finalization and serializer: FIN and SER (spec/43). -/
namespace Sys2Proof.Machine

/-- FIN (43 R125): eight independent additions modulo 2^64. -/
def execFin (s : State) : Host.Outcome State Fault Refusal :=
  s.afterReads finReads (s.writeHv fun i => iv i + s.xVal i).advance

/-- SER (43 R126). -/
def execSer (s : State) : Host.Outcome State Fault Refusal :=
  s.afterReads serReads (s.writeOut s.hvVal).advance

end Sys2Proof.Machine
end

