-- ==== Sys2Proof/Machine/Schedule.lean ====
section
/-! DEFINITION. Message schedule expansion: EXP i (spec/41). -/
namespace Sys2Proof.Machine

/-- The value `EXP n` gives `W[n]` (41 R100). -/
def State.expandedWord (s : State) (n : Nat) : Word :=
  expandWord (s.wVal (n - 16)) (s.wVal (n - 15)) (s.wVal (n - 7)) (s.wVal (n - 2))

/-- EXP i (41 R100). An operand outside 16 to 79 is an illegal encoding (30 R74, 60 R154); the decoder never gives one
(log 7). -/
def execExp (i : BitVec 7) (s : State) : Host.Outcome State Fault Refusal :=
  if expIndexOk i then
    s.afterReads (expReads i.toNat) (s.writeW i.toNat (s.expandedWord i.toNat)).advance
  else .fault (.illegalMicroOp (microWord 0b001#3 i) s.pc)

end Sys2Proof.Machine
end

