-- ==== Sys2Proof/Machine/Dispatch.lean ====
section
/-! DEFINITION. One arm per instruction. -/
namespace Sys2Proof.Machine

def exec (i : Instr) (s : State) : Host.Outcome State Fault Refusal :=
  match i with
  | .asm => Sys2Proof.Machine.execAsm s
  | .exp n => Sys2Proof.Machine.execExp n s
  | .init => Sys2Proof.Machine.execInit s
  | .rnd r => Sys2Proof.Machine.execRnd r s
  | .fin => Sys2Proof.Machine.execFin s
  | .ser => Sys2Proof.Machine.execSer s
  | .halt => Sys2Proof.Machine.execHalt s
  | .start => Sys2Proof.Machine.execStart s

end Sys2Proof.Machine
end

