-- ==== Sys2Proof/Machine/Host.lean ====
section
/-! DEFINITION. The host's data accesses (44 R139 to R143), all of HostOp but the write of 1 to CTRL, which is the
instruction START. -/
namespace Sys2Proof.Machine

/-- Record what the host got back. -/
def State.reply (s : State) (r : HostReply) : State := { s with replies := r :: s.replies }

/-- `HostWriteM(k, b)` (44 R140): dropped while `BUSY = 1`. -/
def State.hostWriteM (s : State) (k : Nat) (b : Byte) : State :=
  if s.busy then s else { s with m := s.m.write k b }

/-- What `HostReadM(k)` gives (44 R141): the byte if it is marked written; else the model refuses (93 U2). -/
def State.hostReadM (s : State) (k : Nat) : HostReply :=
  match s.m.read? k with
  | some b => .byte b
  | none => .refused (.m k)

/-- What `HostReadOut(k)` gives (44 R142): `OUT[k]` while `DONE = 1`; else, or if the byte is marked unwritten
(60 R153), the model refuses. -/
def State.hostReadOut (s : State) (k : Nat) : HostReply :=
  if s.done then
    match s.out.read? k with
    | some b => .byte b
    | none => .refused (.out k)
  else .refused (.out k)

/-- A host access that is no command: reads change only the host's record, and the accesses of 44 R143 change nothing
(a read of `CTRL` returns 0). -/
def State.hostAccess (s : State) : HostOp → State
  | .readStatus => s.reply (.status s.status)
  | .writeM k b => s.hostWriteM k.val b
  | .readM k => s.reply (s.hostReadM k.val)
  | .readOut k => s.reply (s.hostReadOut k.val)
  | .writeCtrl _ => s
  | .readCtrl => s.reply (.ctrl 0#1)
  | .writeStatus _ => s
  | .writeOut _ _ => s

/-- The bytes of `OUT` in order, if the host may read all of them: what `HASH` returns (44 R144). -/
def State.result (s : State) : Option (List Byte) :=
  if s.done then (List.range 64).mapM s.out.read? else none

end Sys2Proof.Machine
end

