-- ==== Sys2Proof/Machine/Sequencer.lean ====
section
/-! DEFINITION. The agents of 44: the sequencer's turn (R135), the host's accesses and its command (R138 to R143), and
the environment's reset (70 R170). -/
namespace Sys2Proof.Machine

/-- Fetch and decode `UROM[pc]` (44 R135): the instruction, or why there is none (60 R154; log 6). -/
def State.fetched (s : State) : Except Fault Instr :=
  match urom s.pc.toNat with
  | none => .error (.noMicroOp s.pc)
  | some u =>
    match decode (.micro u) with
    | .ok i => .ok i
    | .error _ => .error (.illegalMicroOp u s.pc)

/-- A turn of the sequencer (44 R135): one micro-operation while `BUSY = 1`; else it changes nothing
(log 16). -/
def sequencerTurn (s : State) : Host.Outcome State Fault Refusal :=
  if s.busy then
    match s.fetched with
    | .ok i => exec i s
    | .error f => .fault f
  else .next s

/-- A write to `CTRL` (10_state R28): the decoded command, or no operation (44 R143). -/
def ctrlWrite (b : BitVec 1) (s : State) : Host.Outcome State Fault Refusal :=
  match decode (.ctrl b) with
  | .ok i => exec i s
  | .error _ => .next s

/-- One host operation (44 R138 to R143). -/
def hostTurn (op : HostOp) (s : State) : Host.Outcome State Fault Refusal :=
  match op with
  | .writeCtrl b => ctrlWrite b s
  | _ => .next (s.hostAccess op)

/-- One event at the block's boundary. -/
def perform (e : Event) (s : State) : Host.Outcome State Fault Refusal :=
  match e with
  | .host op => hostTurn op s
  | .sequencer => sequencerTurn s
  | .reset => .next s.applyReset

/-- The next event of the agenda; when none is listed the sequencer has the turn (70 R179: a busy sequencer eventually
steps; log 8). -/
def nextTurn (s : State) : Host.Outcome State Fault Refusal :=
  match s.agenda with
  | [] => sequencerTurn s
  | e :: rest => perform e { s with agenda := rest }

/-- The state in which the very next step performs the instruction of a code (log 9): for a micro-operation, `pc` at its
one place in `UROM`, `BUSY = 1` and the turn the sequencer's; for a `CTRL` value, the host's write of it comes next.
An illegal word stands nowhere in `UROM`, so nothing can make the sequencer fetch it: the state is left as it is. -/
def State.selectCode (s : State) : Code → State
  | .ctrl b => { s with agenda := .host (.writeCtrl b) :: s.agenda }
  | .micro u =>
    match decode (.micro u) with
    | .error _ => s
    | .ok i =>
      match uromAddress i with
      | none => s
      | some p => { s with pc := BitVec.ofNat 8 p, busy := true, agenda := .sequencer :: s.agenda }

end Sys2Proof.Machine
end

