-- ==== Sys2Proof/Machine/Step.lean ====
section
/-! DEFINITION. One step of the machine, and the placing of an instruction where the step fetches it. -/
namespace Sys2Proof.Machine

/-- One step: the next event, each atomic (20 R56, 93 U11). -/
def step (s : State) : Host.Outcome State Fault Refusal := nextTurn s

/-- `s` with the instruction of an opcode-table word where the next step fetches it (log 9, log 10). -/
def State.withFetchWord (s : State) (nbits w : Nat) : State :=
  match tableCode nbits w with
  | some c => s.selectCode c
  | none => s

end Sys2Proof.Machine
end

