-- ==== Sys2Proof/Machine/Hash.lean ====
section
/-! DEFINITION. The operation HASH: as a function of the message bytes, as the host procedure (44 R144), and its binding
HASH_DYN (60 R150). -/
namespace Sys2Proof.Machine

/-- Message word j of a 96-byte message (40 R90). A list that is not 96 bytes long has no meaning in the spec (10_state
R24); that a missing byte then counts as 0 is the model's choice (log 21). -/
def messageWord (msg : List Byte) (j : Nat) : Word :=
  be64 (msg.getD (8 * j) 0) (msg.getD (8 * j + 1) 0) (msg.getD (8 * j + 2) 0) (msg.getD (8 * j + 3) 0)
    (msg.getD (8 * j + 4) 0) (msg.getD (8 * j + 5) 0) (msg.getD (8 * j + 6) 0) (msg.getD (8 * j + 7) 0)

/-- The message block: 16 words (40 R90, R91). -/
def blockOf (msg : List Byte) : List Word :=
  (List.range 12).map (messageWord msg) ++ [pad12, pad13, pad14, pad15]

/-- One more schedule word: with `n` words so far, `W[n]` from its taps (41 R100). -/
def expandOnce (ws : List Word) : List Word :=
  ws ++ [expandWord (ws.getD (ws.length - 16) 0) (ws.getD (ws.length - 15) 0) (ws.getD (ws.length - 7) 0)
    (ws.getD (ws.length - 2) 0)]

/-- `n` more schedule words. -/
def expandTimes : Nat → List Word → List Word
  | 0, ws => ws
  | n + 1, ws => expandOnce (expandTimes n ws)

/-- The 80-word message schedule of a 16-word block (41 R100, R101). -/
def scheduleOf (block : List Word) : List Word := expandTimes 64 block

/-- The initial hash value by label (10_state R30). -/
def ivRegs : Regs := ⟨iv 0, iv 1, iv 2, iv 3, iv 4, iv 5, iv 6, iv 7⟩

/-- The working registers after INIT and the first `n` rounds (42 R110, R111). -/
def compressTimes (ws : List Word) : Nat → Regs
  | 0 => ivRegs
  | n + 1 => roundRegs (compressTimes ws n) (kConst n) (ws.getD n 0)

/-- Output word i (43 R125). -/
def outputWord (v : Regs) (i : Nat) : Word := iv i + v.get i

/-- Byte k of the output: byte `k mod 8` of output word `k / 8` (43 R126). -/
def outputByte (v : Regs) (k : Nat) : Byte := byteOf (k % 8) (outputWord v (k / 8))

/-- The 64 output bytes of a 96-byte message (44 R144). Other lengths: log 21. -/
def hashBytes (msg : List Byte) : List Byte :=
  (List.range 64).map (outputByte (compressTimes (scheduleOf (blockOf msg)) 80))

/-- `hash(nonce, public_key, digest)` for three inputs of 32 bytes (00_scope R1, 44 R144). The spec says that no other
length is valid (10_state R24) and gives this no meaning there; what it computes then is the model's choice (log 21).
`hashDyn` is the form that checks the lengths. -/
def hash (nonce publicKey digest : List Byte) : List Byte := hashBytes (nonce ++ publicKey ++ digest)

/-- One host write of a byte of `M`. An index of 96 or more cannot be expressed (44 R140): here it wraps modulo 96, the
model's choice (log 22). -/
def hostWrite (k : Nat) (b : Byte) : Event := .host (.writeM (Fin.ofNat 96 k) b)

/-- A host write of several bytes of `M`: single bytes in ascending order of address (20_memory R54). One that would run
past `M[95]` goes on at `M[0]`, the model's choice (log 22). -/
def hostWriteWide (k : Nat) : List Byte → List Event
  | [] => []
  | b :: bs => hostWrite k b :: hostWriteWide (k + 1) bs

/-- The loads of HASH (44 R144), for three inputs of 32 bytes. Of an input of another length, which the spec calls not
valid (10_state R24), it writes 0 for a missing byte and drops bytes past the 32nd: the model's choice (log 21). -/
def loadScript (nonce publicKey digest : List Byte) : List Event :=
  (List.range 32).flatMap fun k =>
    [hostWrite k (nonce.getD k 0), hostWrite (32 + k) (publicKey.getD k 0), hostWrite (64 + k) (digest.getD k 0)]

/-- START and the 149 turns of the sequencer that end the call (44 R144, R147; log 18). -/
def callScript : List Event := .host (.writeCtrl 1#1) :: List.replicate 149 .sequencer

/-- The poll that finds `DONE = 1` and the 64 reads of `OUT` (44 R144). -/
def readScript : List Event :=
  .host .readStatus :: (List.range 64).map fun k => .host (.readOut (Fin.ofNat 64 k))

/-- `HASH(n, p, d)` as a host procedure (44 R144; log 18), for three inputs of 32 bytes (log 21). -/
def hashScript (nonce publicKey digest : List Byte) : List Event :=
  loadScript nonce publicKey digest ++ callScript ++ readScript

/-- The one error of the binding (60 R150). It carries nothing. -/
inductive HashError where
  | invalidLength
  deriving DecidableEq, Repr

/-- Its cause code (60 R152). -/
def hashErrorCode : HashError → Nat
  | .invalidLength => 1

/-- The cause code of a result of `HASH_DYN`: 0 is no error (60 R152). -/
def hashDynCode {α : Type} : Except HashError α → Nat
  | .ok _ => 0
  | .error e => hashErrorCode e

/-- `HASH_DYN` (60 R150): with all three lengths 32 the host goes on to do what `HASH` does; else `InvalidLength` is the
result of the call, before any host operation, and there is no new state. 44 R144 gives HASH a meaning only from
`BUSY = 0`. DESIGN CHOICE (log 23): with right lengths the answer is `.ok` and the script is queued all the same while a
call is running, or behind events still to come; its writes and its START may then be ignored (`BUSY = 1`), and the bytes
it reads may be the running call's. -/
def hashDyn (nonce publicKey digest : List Byte) (s : State) : Except HashError State :=
  if nonce.length = 32 ∧ publicKey.length = 32 ∧ digest.length = 32 then
    .ok { s with agenda := s.agenda ++ hashScript nonce publicKey digest }
  else .error .invalidLength

end Sys2Proof.Machine
end

