-- ==== Sys2Proof/Machine/Instances.lean ====
section
/-! DEFINITION. Several CORE instances (60 R160): independent copies, each with its own complete state, any interleaving
of their steps (log 17). -/
namespace Sys2Proof.Machine

/-- One step of an instance; an instance that has stopped stays as it is (60 R153: no later step clears a fault). -/
def stepOrStay (s : State) : State :=
  match step s with
  | .next t => t
  | .fault _ => s
  | .refused _ => s

/-- Instance `j` takes its step; a `j` that names no instance changes nothing. -/
def stepInstance (cs : List State) (j : Nat) : List State :=
  match cs, j with
  | [], _ => []
  | c :: rest, 0 => stepOrStay c :: rest
  | c :: rest, j + 1 => c :: stepInstance rest j

/-- The instances take steps in the order given. -/
def runInstances : List Nat → List State → List State
  | [], cs => cs
  | j :: order, cs => runInstances order (stepInstance cs j)

/-- `n` steps of one instance alone. -/
def runAlone : Nat → State → State
  | 0, s => s
  | n + 1, s => runAlone n (stepOrStay s)

end Sys2Proof.Machine
end

