-- ==== Sys2Proof/Machine/Microprogram.lean ====
section
/-! DEFINITION. The pseudo-operations of 30 R77, running a list of instructions, the listing syntax of 30 R76, and the
cause codes of 60 R152. -/
namespace Sys2Proof.Machine

/-- `SCHED`: EXP 16 to EXP 79 (30 R77). -/
def sched : List Instr := (List.range 64).map fun k => .exp (BitVec.ofNat 7 (16 + k))

/-- `RND 0` to `RND (n-1)`. -/
def rounds (n : Nat) : List Instr := (List.range n).map fun r => .rnd (BitVec.ofNat 7 r)

/-- `COMPRESS`: INIT, then RND 0 to RND 79 (30 R77). -/
def compress : List Instr := .init :: rounds 80

/-- `FINAL`: FIN, SER (30 R77). -/
def final : List Instr := [.fin, .ser]

/-- `CORE`: the whole of `UROM` (30 R77, 44 R136). -/
def coreProgram : List Instr := .asm :: (sched ++ compress ++ final ++ [.halt])

/-- Instructions applied one after another, by the rules, to a state. -/
def execSeq : List Instr → State → Host.Outcome State Fault Refusal
  | [], s => .next s
  | i :: is, s =>
    match exec i s with
    | .next t => execSeq is t
    | .fault f => .fault f
    | .refused r => .refused r

/-- The listing of a micro-operation: its mnemonic, and for EXP and RND the index in decimal (30 R76). -/
def listing : Instr → String
  | .asm => "ASM"
  | .exp i => "EXP " ++ toString i.toNat
  | .init => "INIT"
  | .rnd r => "RND " ++ toString r.toNat
  | .fin => "FIN"
  | .ser => "SER"
  | .halt => "HALT"
  | .start => "START"

/-- A listing line with its `UROM` address (30 R76). -/
def listingLine (p : Nat) (i : Instr) : String := toString p ++ ": " ++ listing i

/-- The cause code of a fault (60 R152). The fetch of a `pc` never held has none. -/
def faultCode : Fault → Option Nat
  | .unwrittenRead _ => some 2
  | .illegalMicroOp _ _ => some 3
  | .noMicroOp _ => none

/-- The cause code of an outcome of an instruction or a step: 0 is no error (60 R152). A refusal has none. -/
def outcomeCode : Host.Outcome State Fault Refusal → Option Nat
  | .next _ => some 0
  | .fault f => faultCode f
  | .refused _ => none

/-- The cause code of a host access: a refused read has the code of `UnwrittenRead` (60 R153), every other answer 0. -/
def replyCode : HostReply → Nat
  | .refused _ => 2
  | .status _ | .byte _ | .ctrl _ => 0

end Sys2Proof.Machine
end

