-- ==== Sys2Proof/Safety.lean ====
section
/-! DEFINITION. The terms claims are stated in: which reads are allowed, the invariants, what a step performs, and the
formulas of the spec written a second time with the core library's own operations, so that a statement does not repeat
the model's definition. -/
namespace Sys2Proof.Safety
open Sys2Proof.Machine

/-- The next state of an outcome, if there is one. -/
def nextOf : Host.Outcome State Fault Refusal → Option State
  | .next t => some t
  | .fault _ => none
  | .refused _ => none

/-- The fault of an outcome, if it is one. -/
def faultOf : Host.Outcome State Fault Refusal → Option Fault
  | .next _ => none
  | .fault f => some f
  | .refused _ => none

/-- `n` steps of the machine, stopping where a step does not answer a next state. -/
def runSteps : Nat → State → Host.Outcome State Fault Refusal
  | 0, s => .next s
  | n + 1, s =>
    match step s with
    | .next t => runSteps n t
    | .fault f => .fault f
    | .refused r => .refused r

/-- Which elements carrying a mark an instruction reads: the table of 70 R176. -/
def Reads : Instr → Element → Prop
  | .asm, e => ∃ k < 96, e = .m k
  | .exp i, e => e = .w (i.toNat - 16) ∨ e = .w (i.toNat - 15) ∨ e = .w (i.toNat - 7) ∨ e = .w (i.toNat - 2)
  | .rnd r, e => (∃ j < 8, e = .x j) ∨ e = .w r.toNat
  | .fin, e => ∃ j < 8, e = .x j
  | .ser, e => ∃ j < 8, e = .hv j
  | .init, _ | .halt, _ | .start, _ => False

/-- Everything the instruction reads is marked written. -/
def ReadsWritten (i : Instr) (s : State) : Prop := ∀ e, Reads i e → s.isWritten e = true

/-- The instruction may read what it reads: every element is marked written, or the instruction is another than ASM (70
R172) and the treatment of 10_state R34 is `held` (log 2). -/
def Readable (i : Instr) (s : State) : Prop := (s.unwrittenReads = .held ∧ i ≠ .asm) ∨ ReadsWritten i s

/-- Every byte of `M` is marked written: the boot requirement (70 R172). -/
abbrev MLoaded (s : State) : Prop := ∀ k < 96, (s.m.read? k).isSome = true

/-- Two byte spaces give the same on every read of one byte. -/
def SameBytes (a b : Memory) : Prop := ∀ k, a.read? k = b.read? k

/-- A word marked unwritten holds the one fixed value (10_state R34; log 1). -/
def UnwrittenFixed (c : Marked) : Prop := c.written = false → c.value = Config.unwrittenWord

/-- The state's data is in canonical form: both byte spaces, and every unwritten word of `W`, `x` and `HV`. -/
def MemoriesCanonical (s : State) : Prop :=
  Memory.wf 96 s.m ∧ Memory.wf 64 s.out ∧
    ∀ i, UnwrittenFixed (s.wElem i) ∧ UnwrittenFixed (s.xElem i) ∧ UnwrittenFixed (s.hvElem i)

/-- How many words of `W` a call has written when the step counter is `p` (70 R176). -/
def wordsWritten (p : Nat) : Nat := if p = 0 then 0 else min 80 (p + 15)

/-- What the micro-operations before `UROM[p]` have written in this call (70 R176). -/
def CallProgress (s : State) : Prop :=
  (∀ j < wordsWritten s.pc.toNat, (s.wElem j).written = true) ∧
  (66 ≤ s.pc.toNat → ∀ j < 8, (s.xElem j).written = true) ∧
  (147 ≤ s.pc.toNat → ∀ j < 8, (s.hvElem j).written = true) ∧
  (148 ≤ s.pc.toNat → ∀ k < 64, (s.out.read? k).isSome = true)

/-- The sequencer's invariant: `pc` is an index of `UROM` (10_state R26), `STATUS` is a legal combination
(10_state R27), a running call has written what its next micro-operation reads (70 R176), and `DONE` means that `OUT`
holds a result (10_state R27, 70 R174). -/
def SequencerInv (s : State) : Prop :=
  s.pc.toNat ≤ 148 ∧ ¬(s.busy = true ∧ s.done = true) ∧ (s.busy = true → CallProgress s) ∧
  (s.done = true → ∀ k < 64, (s.out.read? k).isSome = true)

/-- The event the next step performs. -/
def nextEvent (s : State) : Event :=
  match s.agenda with
  | [] => .sequencer
  | e :: _ => e

/-- The events the next `n` steps perform: those to come, and turns of the sequencer when no more are listed. -/
def events (n : Nat) (s : State) : List Event := (s.agenda ++ List.replicate n Event.sequencer).take n

/-- The next `n` steps end with the 149th turn of the sequencer, the last of a call (44 R147), and no reset is among
them. The host may do anything meanwhile: poll, read, write `M`, issue START. -/
def EndsACall (n : Nat) (s : State) : Prop :=
  Event.reset ∉ events n s ∧ (events n s).count Event.sequencer = 149 ∧ (events n s).getLast? = some .sequencer

/-- The instruction the next step performs, if it performs one (44 R135, R138). -/
def performed (s : State) : Option Instr :=
  match nextEvent s with
  | .sequencer => if s.busy then s.fetched.toOption else none
  | .host (.writeCtrl b) => (decode (.ctrl b)).toOption
  | _ => none

/-- The instructions the next `n` steps perform (42 R116, 70 R177). -/
def instrTrace : Nat → State → List Instr
  | 0, _ => []
  | n + 1, s =>
    (performed s).toList ++
      match step s with
      | .next t => instrTrace n t
      | .fault _ => []
      | .refused _ => []

/-- How long the next `n` steps take, in the open units of `STEP_TIME` (70 R177, R179). The spec gives
`STEP_TIME` to a step of the sequencer only. DESIGN CHOICE (log 24): a START counts `Config.stepTime .start`, one that is
ignored too, and every other host access, a reset and a turn of an idle sequencer count 0. -/
def runDuration (n : Nat) (s : State) : Nat := ((instrTrace n s).map Config.stepTime).sum

/-- The bytes of `M` in order of address. -/
def messageOf (s : State) : List Byte := (List.range 96).map s.mByte

/-- `sigma0` of 00_scope R11 over the library's rotation. -/
def sigma0 (x : Word) : Word := x.rotateRight 1 ^^^ x.rotateRight 8 ^^^ x.ushiftRight 7

/-- `sigma1` of 00_scope R11 over the library's rotation. -/
def sigma1 (x : Word) : Word := x.rotateRight 19 ^^^ x.rotateRight 61 ^^^ x.ushiftRight 6

/-- `Sigma0` of 00_scope R11 over the library's rotation. -/
def upperSigma0 (x : Word) : Word := x.rotateRight 28 ^^^ x.rotateRight 34 ^^^ x.rotateRight 39

/-- `Sigma1` of 00_scope R11 over the library's rotation. -/
def upperSigma1 (x : Word) : Word := x.rotateRight 14 ^^^ x.rotateRight 18 ^^^ x.rotateRight 41

/-- `Ch` of 00_scope R11. -/
def ch (x y z : Word) : Word := (x &&& y) ^^^ (~~~x &&& z)

/-- `Maj` of 00_scope R11. -/
def maj (x y z : Word) : Word := (x &&& y) ^^^ (x &&& z) ^^^ (y &&& z)

/-- The big-endian word of eight bytes, most significant first, by concatenation (00_scope R9). -/
def bigEndian (b : Nat → Byte) : Word := b 0 ++ b 1 ++ b 2 ++ b 3 ++ b 4 ++ b 5 ++ b 6 ++ b 7

/-- Byte k of a word, from the most significant (00_scope R7), by shifting. -/
def wordByte (v : Word) (k : Nat) : Byte := (v >>> (56 - 8 * k)).setWidth 8

/-- What ASM does to `s` (40 R90, R91), the 96 bytes of `M` being `b`: twelve big-endian words, the four padding
literals, nothing else but the step counter. -/
def AsmEffect (b : Nat → Byte) (s t : State) : Prop :=
  (∀ j < 12, t.wElem j = ⟨bigEndian fun k => b (8 * j + k), true⟩) ∧
  t.wElem 12 = ⟨0x8000000000000000#64, true⟩ ∧ t.wElem 13 = ⟨0#64, true⟩ ∧ t.wElem 14 = ⟨0#64, true⟩ ∧
  t.wElem 15 = ⟨0x0000000000000300#64, true⟩ ∧ (∀ j, 16 ≤ j → t.wElem j = s.wElem j) ∧
  t = { s with w := t.w, pc := s.pc + 1#8 }

/-- What `EXP n` does to `s` (41 R100). -/
def ExpEffect (n : Nat) (s t : State) : Prop :=
  t.wElem n = ⟨s.wVal (n - 16) + sigma0 (s.wVal (n - 15)) + s.wVal (n - 7) + sigma1 (s.wVal (n - 2)), true⟩ ∧
  (∀ j, j ≠ n → t.wElem j = s.wElem j) ∧ t = { s with w := t.w, pc := s.pc + 1#8 }

/-- What INIT does to `s` (42 R110), with the values of 10_state R30. -/
def InitEffect (s t : State) : Prop :=
  t.xElem 0 = ⟨0x6a09e667f3bcc908#64, true⟩ ∧ t.xElem 1 = ⟨0xbb67ae8584caa73b#64, true⟩ ∧
  t.xElem 2 = ⟨0x3c6ef372fe94f82b#64, true⟩ ∧ t.xElem 3 = ⟨0xa54ff53a5f1d36f1#64, true⟩ ∧
  t.xElem 4 = ⟨0x510e527fade682d1#64, true⟩ ∧ t.xElem 5 = ⟨0x9b05688c2b3e6c1f#64, true⟩ ∧
  t.xElem 6 = ⟨0x1f83d9abfb41bd6b#64, true⟩ ∧ t.xElem 7 = ⟨0x5be0cd19137e2179#64, true⟩ ∧
  t = { s with x := t.x, pc := s.pc + 1#8 }

/-- `T1` of round `r` in `s` (42 R111). -/
def t1Of (r : Nat) (s : State) : Word :=
  s.xVal 7 + upperSigma1 (s.xVal 4) + ch (s.xVal 4) (s.xVal 5) (s.xVal 6) + kConst r + s.wVal r

/-- `T2` of a round in `s` (42 R111). -/
def t2Of (s : State) : Word := upperSigma0 (s.xVal 0) + maj (s.xVal 0) (s.xVal 1) (s.xVal 2)

/-- What `RND r` does to `s` (42 R111, R112). -/
def RndEffect (r : Nat) (s t : State) : Prop :=
  t.xElem 0 = ⟨t1Of r s + t2Of s, true⟩ ∧ t.xElem 1 = ⟨s.xVal 0, true⟩ ∧ t.xElem 2 = ⟨s.xVal 1, true⟩ ∧
  t.xElem 3 = ⟨s.xVal 2, true⟩ ∧ t.xElem 4 = ⟨s.xVal 3 + t1Of r s, true⟩ ∧ t.xElem 5 = ⟨s.xVal 4, true⟩ ∧
  t.xElem 6 = ⟨s.xVal 5, true⟩ ∧ t.xElem 7 = ⟨s.xVal 6, true⟩ ∧ t = { s with x := t.x, pc := s.pc + 1#8 }

/-- What FIN does to `s` (43 R125). -/
def FinEffect (s t : State) : Prop :=
  (∀ i < 8, t.hvElem i = ⟨iv i + s.xVal i, true⟩) ∧ t = { s with hv := t.hv, pc := s.pc + 1#8 }

/-- What SER does to `s` (43 R126): byte k of word i goes to address 8i + k. -/
def SerEffect (s t : State) : Prop :=
  (∀ i < 8, ∀ k < 8, t.out.read? (8 * i + k) = some (wordByte (s.hvVal i) k)) ∧
  (∀ a, 64 ≤ a → t.out.read? a = s.out.read? a) ∧ t = { s with out := t.out, pc := s.pc + 1#8 }

/-- What a START that finds `BUSY = 0` does to `s` (44 R138). What the unmarked registers hold is not stated. -/
def StartEffect (s t : State) : Prop :=
  t.pc = 0#8 ∧ t.busy = true ∧ t.done = false ∧ (∀ i, t.isWritten (.w i) = false) ∧ (∀ i, t.isWritten (.x i) = false) ∧
  (∀ i, t.isWritten (.hv i) = false) ∧ (∀ k, t.isWritten (.out k) = false) ∧
  t = { s with w := t.w, x := t.x, hv := t.hv, out := t.out, pc := 0#8, busy := true, done := false }

/-- The first 80 primes (10_state R30, R31). -/
def primes80 : List Nat :=
  [2, 3, 5, 7, 11, 13, 17, 19, 23, 29, 31, 37, 41, 43, 47, 53, 59, 61, 67, 71] ++
  [73, 79, 83, 89, 97, 101, 103, 107, 109, 113, 127, 131, 137, 139, 149, 151, 157, 163, 167, 173] ++
  [179, 181, 191, 193, 197, 199, 211, 223, 227, 229, 233, 239, 241, 251, 257, 263, 269, 271, 277, 281] ++
  [283, 293, 307, 311, 313, 317, 331, 337, 347, 349, 353, 359, 367, 373, 379, 383, 389, 397, 401, 409]

end Sys2Proof.Safety
end

