-- ==== Sys2Proof/Certificates/Slice0/Obligations.lean ====
section
/-! DEFINITION. The statements for the provers. Each docstring names the rule of spec/ it comes from. -/
open Sys2Proof Sys2Proof.Machine Sys2Proof.Safety

/-! Encoding -/

/-- 30 R72: an encoded well-formed instruction decodes to itself. -/
def Obligations.DecodeOfEncodeIsIdentity : Prop :=
  ∀ i : Instr, i.wf = true → decode (encode i) = .ok i

/-- 30 R71, R72: what decodes is well formed and has that one encoding. -/
def Obligations.EncodeOfDecodeIsIdentity : Prop :=
  ∀ (c : Code) (i : Instr), decode c = .ok i → i.wf = true ∧ encode i = c

/-- 60 R154, over the legal words of 30 R74: every other word is refused by name, and `UROM` holds only legal words.
-/
def Obligations.LegalWordsAreExactlyTheTable : Prop :=
  (∀ u : MicroWord,
    if u.toNat = 0x000 ∨ (0x090 ≤ u.toNat ∧ u.toNat ≤ 0x0CF) ∨ u.toNat = 0x100 ∨
        (0x180 ≤ u.toNat ∧ u.toNat ≤ 0x1CF) ∨ u.toNat = 0x200 ∨ u.toNat = 0x280 ∨ u.toNat = 0x300
    then ∃ i, decode (.micro u) = .ok i
    else decode (.micro u) = .error (.illegalMicroOp u)) ∧
  ∀ p u, urom p = some u → ∃ i, decode (.micro u) = .ok i

/-- 95 section 10: words written out bit by bit, from every family. -/
def Obligations.SpecWordsDecode : Prop :=
  decode (.micro 0b0000000000#10) = .ok .asm ∧
  decode (.micro 0b0010010000#10) = .ok (.exp 16#7) ∧
  decode (.micro 0b0011001111#10) = .ok (.exp 79#7) ∧
  decode (.micro 0b0100000000#10) = .ok .init ∧
  decode (.micro 0b0110001111#10) = .ok (.rnd 15#7) ∧
  decode (.micro 0b0111001111#10) = .ok (.rnd 79#7) ∧
  decode (.micro 0b1000000000#10) = .ok .fin ∧
  decode (.micro 0b1010000000#10) = .ok .ser ∧
  decode (.micro 0b1100000000#10) = .ok .halt ∧
  decode (.ctrl 0b1#1) = .ok .start

/-- 44 R136: what stands at every address of UROM. -/
def Obligations.MicroprogramLayout : Prop :=
  (∃ u, urom 0 = some u ∧ u.toNat = 0x000 ∧ decode (.micro u) = .ok .asm) ∧
  (∀ i : BitVec 7, expIndexOk i →
    ∃ u, urom (i.toNat - 15) = some u ∧ u.toNat = 0x080 + i.toNat ∧ decode (.micro u) = .ok (.exp i)) ∧
  (∃ u, urom 65 = some u ∧ u.toNat = 0x100 ∧ decode (.micro u) = .ok .init) ∧
  (∀ r : BitVec 7, rndIndexOk r →
    ∃ u, urom (66 + r.toNat) = some u ∧ u.toNat = 0x180 + r.toNat ∧ decode (.micro u) = .ok (.rnd r)) ∧
  (∃ u, urom 146 = some u ∧ u.toNat = 0x200 ∧ decode (.micro u) = .ok .fin) ∧
  (∃ u, urom 147 = some u ∧ u.toNat = 0x280 ∧ decode (.micro u) = .ok .ser) ∧
  (∃ u, urom 148 = some u ∧ u.toNat = 0x300 ∧ decode (.micro u) = .ok .halt) ∧
  (∀ p, 149 ≤ p → urom p = none)

/-! A step -/

/-- 44 R135, R138: the step runs the instruction that `UROM[pc]`, or the value written to `CTRL`, decodes to; around
it the step only takes the event off the agenda. -/
def Obligations.StepRunsTheDecodedInstruction : Prop :=
  (∀ (s : State) (u : MicroWord) (i : Instr) (rest : List Event), s.busy = true → urom s.pc.toNat = some u →
    decode (.micro u) = .ok i → ((s.agenda = [] ∧ rest = []) ∨ s.agenda = .sequencer :: rest) →
    step s = exec i { s with agenda := rest }) ∧
  (∀ (s : State) (b : BitVec 1) (i : Instr) (rest : List Event), decode (.ctrl b) = .ok i →
    s.agenda = .host (.writeCtrl b) :: rest → step s = exec i { s with agenda := rest })

/-- The model's placing of an instruction (log 9): the very next step runs exactly it, as the sequencer would at the
instruction's own place in UROM. -/
def Obligations.PlacedInstructionRunsNext : Prop :=
  (∀ (s : State) (w : Nat) (i : Instr), decodeTableWord 16 w = some i →
    ∃ p, p ≤ 148 ∧ (∃ u, urom p = some u ∧ decode (.micro u) = .ok i) ∧
      step (s.withFetchWord 16 w) = exec i { s with pc := BitVec.ofNat 8 p, busy := true }) ∧
  (∀ s : State, step (s.withFetchWord 8 1) = exec .start s)

/-- 44 R135: while `BUSY = 0` the sequencer has no step and changes nothing. -/
def Obligations.IdleSequencerChangesNothing : Prop :=
  ∀ s : State, s.busy = false →
    (s.agenda = [] → step s = .next s) ∧
    (∀ rest, s.agenda = .sequencer :: rest → step s = .next { s with agenda := rest })

/-! Results -/

/-- 40 R90, R91. -/
def Obligations.AsmAssemblesTheBlock : Prop :=
  ∀ (s : State) (b : Nat → Byte), (∀ k < 96, s.m.read? k = some (b k)) →
    ∃ t, exec .asm s = .next t ∧ AsmEffect b s t

/-- 41 R100. -/
def Obligations.ExpExpandsTheSchedule : Prop :=
  ∀ (s : State) (i : BitVec 7), 16 ≤ i.toNat → i.toNat ≤ 79 → ReadsWritten (.exp i) s →
    ∃ t, exec (.exp i) s = .next t ∧ ExpEffect i.toNat s t

/-- 42 R110. -/
def Obligations.InitLoadsTheInitialHashValue : Prop :=
  ∀ s : State, ∃ t, exec .init s = .next t ∧ InitEffect s t

/-- 42 R111, R112. -/
def Obligations.RndPerformsOneRound : Prop :=
  ∀ (s : State) (r : BitVec 7), r.toNat ≤ 79 → ReadsWritten (.rnd r) s →
    ∃ t, exec (.rnd r) s = .next t ∧ RndEffect r.toNat s t

/-- 43 R125. -/
def Obligations.FinAddsTheInitialHashValue : Prop :=
  ∀ s : State, ReadsWritten .fin s → ∃ t, exec .fin s = .next t ∧ FinEffect s t

/-- 43 R126. -/
def Obligations.SerSerializesBigEndian : Prop :=
  ∀ s : State, ReadsWritten .ser s → ∃ t, exec .ser s = .next t ∧ SerEffect s t

/-- 44 R137. -/
def Obligations.HaltEndsTheCall : Prop :=
  ∀ s : State, exec .halt s = .next { s with busy := false, done := true }

/-- 44 R138. -/
def Obligations.StartBeginsACallOrIsIgnored : Prop :=
  ∀ s : State,
    if s.busy = true then exec .start s = .next s
    else ∃ t, exec .start s = .next t ∧ StartEffect s t

/-- The model's choice (logs 1 and 2): under the `held` treatment EXP, RND, FIN and SER have the same effects on every
state, an unwritten register giving the value it holds, which is the one fixed value of 10_state R34 in every state of
`MemoriesCanonical`. ASM runs when all of `M` is written, and otherwise faults (70 R172). -/
def Obligations.HeldTreatmentAlwaysRuns : Prop :=
  ∀ s : State, s.unwrittenReads = .held →
    (MLoaded s → ∃ t, exec .asm s = .next t ∧ AsmEffect s.mByte s t) ∧
    (¬ MLoaded s → ∃ k < 96, s.m.read? k = none ∧ exec .asm s = .fault (.unwrittenRead (.m k))) ∧
    (∀ i : BitVec 7, 16 ≤ i.toNat → i.toNat ≤ 79 → ∃ t, exec (.exp i) s = .next t ∧ ExpEffect i.toNat s t) ∧
    (∀ r : BitVec 7, r.toNat ≤ 79 → ∃ t, exec (.rnd r) s = .next t ∧ RndEffect r.toNat s t) ∧
    (∃ t, exec .fin s = .next t ∧ FinEffect s t) ∧
    (∃ t, exec .ser s = .next t ∧ SerEffect s t)

/-- 60 R153, 70 R172: a micro-operation that would read an unwritten element faults and names one: ASM always, the
others under the `fault` treatment (the model's field, log 2). -/
def Obligations.UnwrittenReadFaultsByName : Prop :=
  ∀ (s : State) (i : Instr), i.wf = true → (i = .asm ∨ s.unwrittenReads = .fault) → ¬ ReadsWritten i s →
    ∃ e, Reads i e ∧ s.isWritten e = false ∧ exec i s = .fault (.unwrittenRead e)

/-- The model's choice (log 7), after 30 R74 and 60 R154: EXP and RND with an operand outside the legal range. -/
def Obligations.IllegalOperandFaults : Prop :=
  ∀ (s : State) (i : Instr), i.wf = false →
    ∃ u, encode i = .micro u ∧ exec i s = .fault (.illegalMicroOp u s.pc)

/-! Frames -/

/-- 40 R90, 41 R100: ASM and EXP leave everything but their words of `W` and the step counter. -/
def Obligations.FrameOfAsmAndExp : Prop :=
  ∀ (s t : State) (i : Instr), (i = .asm ∨ ∃ n, i = .exp n) → exec i s = .next t →
    (∀ j, ((i = .asm ∧ 16 ≤ j) ∨ ∃ n, i = .exp n ∧ j ≠ n.toNat) → t.wElem j = s.wElem j) ∧
    t.x = s.x ∧ t.hv = s.hv ∧ t.busy = s.busy ∧ t.done = s.done ∧ t.unwrittenReads = s.unwrittenReads ∧
    t.agenda = s.agenda ∧ t.replies = s.replies ∧ SameBytes t.m s.m ∧ SameBytes t.out s.out

/-- 42 R110, R111, 43 R125: INIT, RND and FIN leave everything but their register file and the step counter. -/
def Obligations.FrameOfInitRndAndFin : Prop :=
  ∀ (s t : State) (i : Instr), (i = .init ∨ (∃ r, i = .rnd r) ∨ i = .fin) → exec i s = .next t →
    t.w = s.w ∧ (i = .fin → t.x = s.x) ∧ (i ≠ .fin → t.hv = s.hv) ∧ t.busy = s.busy ∧ t.done = s.done ∧
    t.unwrittenReads = s.unwrittenReads ∧ t.agenda = s.agenda ∧ t.replies = s.replies ∧
    SameBytes t.m s.m ∧ SameBytes t.out s.out

/-- 43 R126: SER leaves everything but the bytes it stores to, 8i + k of `OUT`, and the step counter. -/
def Obligations.FrameOfSer : Prop :=
  ∀ s t : State, exec .ser s = .next t →
    t.w = s.w ∧ t.x = s.x ∧ t.hv = s.hv ∧ t.busy = s.busy ∧ t.done = s.done ∧
    t.unwrittenReads = s.unwrittenReads ∧ t.agenda = s.agenda ∧ t.replies = s.replies ∧ SameBytes t.m s.m ∧
    (∀ a, (∀ i < 8, ∀ k < 8, a ≠ 8 * i + k) → t.out.read? a = s.out.read? a)

/-- 44 R137, R138: HALT leaves everything but the two status bits; START leaves `M` and the model's own fields. What
START does to the rest is `StartBeginsACallOrIsIgnored`. -/
def Obligations.FrameOfHaltAndStart : Prop :=
  ∀ (s t : State) (i : Instr), (i = .halt ∨ i = .start) → exec i s = .next t →
    SameBytes t.m s.m ∧ t.unwrittenReads = s.unwrittenReads ∧ t.agenda = s.agenda ∧ t.replies = s.replies ∧
    (i = .halt → t.w = s.w ∧ t.x = s.x ∧ t.hv = s.hv ∧ t.pc = s.pc ∧ SameBytes t.out s.out)

/-! The host -/

/-- 44 R139, 10_state R27: `STATUS` is (DONE, BUSY), and reading it has no side effect. -/
def Obligations.HostReadStatusGivesDoneBusy : Prop :=
  ∀ (s : State) (rest : List Event), s.agenda = .host .readStatus :: rest →
    ∃ v : BitVec 2, v.getLsbD 0 = s.busy ∧ v.getLsbD 1 = s.done ∧
      step s = .next { s with agenda := rest, replies := .status v :: s.replies }

/-- 44 R140: a host write while idle stores one byte; while busy it is dropped. -/
def Obligations.HostWriteMStoresOrIsDropped : Prop :=
  ∀ (s : State) (rest : List Event) (k : Fin 96) (b : Byte), s.agenda = .host (.writeM k b) :: rest →
    if s.busy = true then step s = .next { s with agenda := rest }
    else ∃ t, step s = .next t ∧ t.m.read? k = some b ∧ (∀ j : Nat, j ≠ k → t.m.read? j = s.m.read? j) ∧
      t = { s with m := t.m, agenda := rest }

/-- 44 R141: a host read of `M` at any time gives a written byte. For an unwritten one, which has no value, the recorded
reply `refused` is the model's choice (log 11). -/
def Obligations.HostReadMGivesTheByte : Prop :=
  ∀ (s : State) (rest : List Event) (k : Fin 96), s.agenda = .host (.readM k) :: rest →
    (∀ b, s.m.read? k = some b → step s = .next { s with agenda := rest, replies := .byte b :: s.replies }) ∧
    (s.m.read? k = none → step s = .next { s with agenda := rest, replies := .refused (.m k) :: s.replies })

/-- 44 R142: a host read of `OUT` gives the byte while `DONE = 1`, and in a state of the sequencer's invariant there
always is one. While `DONE = 0`, or where the byte is unwritten (60 R153; never in such a state), the recorded reply
`refused` is the model's choice (log 11). -/
def Obligations.HostReadOutNeedsDone : Prop :=
  ∀ (s : State) (rest : List Event) (k : Fin 64), s.agenda = .host (.readOut k) :: rest →
    (∀ b, s.done = true → s.out.read? k = some b →
      step s = .next { s with agenda := rest, replies := .byte b :: s.replies }) ∧
    (SequencerInv s → s.done = true → ∃ b, s.out.read? k = some b ∧
      step s = .next { s with agenda := rest, replies := .byte b :: s.replies }) ∧
    ((s.done = false ∨ s.out.read? k = none) →
      step s = .next { s with agenda := rest, replies := .refused (.out k) :: s.replies })

/-- 44 R143: every other host access has no effect; a read of `CTRL` returns 0. -/
def Obligations.OtherHostAccessesHaveNoEffect : Prop :=
  ∀ (s : State) (rest : List Event) (op : HostOp), s.agenda = .host op :: rest →
    ((op = .writeCtrl 0#1 ∨ (∃ v, op = .writeStatus v) ∨ ∃ k b, op = .writeOut k b) →
      step s = .next { s with agenda := rest }) ∧
    (op = .readCtrl → step s = .next { s with agenda := rest, replies := .ctrl 0#1 :: s.replies })

/-! Reset -/

/-- 10_state R36: the values reset gives. -/
def Obligations.ResetStateIsAsTheSpecSays : Prop :=
  State.reset.busy = false ∧ State.reset.done = false ∧ State.reset.pc = 0#8 ∧
  ∀ e, State.reset.isWritten e = false

/-- 70 R170: reset at any time, a running call included; afterwards the sequencer is idle. -/
def Obligations.ResetEventAbandonsTheCall : Prop :=
  ∀ (s : State) (rest : List Event), s.agenda = .reset :: rest →
    ∃ t, step s = .next t ∧ t.busy = false ∧ t.done = false ∧ t.pc = 0#8 ∧ (∀ e, t.isWritten e = false) ∧
      t.agenda = rest ∧ (rest = [] → step t = .next t)

/-! Whole-machine rules and invariants -/

/-- 10_state R26, R27, 70 R174, R176 (inferences the spec marks as its own): every step keeps the sequencer's
invariant. -/
def Obligations.StepKeepsSequencerInv : Prop :=
  ∀ s t : State, SequencerInv s → step s = .next t → SequencerInv t

/-- The invariant holds at reset. -/
def Obligations.ResetHasSequencerInv : Prop := SequencerInv State.reset

/-- 70 R176 (the spec's own inference): written before read. In a state of the invariant whose `M` is written when a
call begins, no step stops, whichever treatment of unwritten reads applies and whatever the host does. -/
def Obligations.WrittenBeforeRead : Prop :=
  ∀ s : State, SequencerInv s → (s.busy = true → s.pc = 0#8 → MLoaded s) → ∃ t, step s = .next t

/-- Every step keeps the canonical form of both byte spaces, and keeps every unwritten word of `W`, `x`, `HV` at the one
fixed value 10_state R34 allows (the model's choice of form and value, logs 1, 3 and 4). -/
def Obligations.StepKeepsMemoriesCanonical : Prop :=
  ∀ s t : State, MemoriesCanonical s → step s = .next t → MemoriesCanonical t

/-- The byte spaces are canonical at reset, and the registers hold the fixed value (logs 1 and 3). -/
def Obligations.ResetHasMemoriesCanonical : Prop := MemoriesCanonical State.reset

/-- 44 R137, R143, 70 R171, 60 R161, 10_state R27, R29: every change of `STATUS`. `DONE` becomes 1 only by HALT and 0
only by START or reset; `BUSY` becomes 1 only by START and 0 only by HALT or reset. -/
def Obligations.StatusChangesOnlyByStartHaltReset : Prop :=
  ∀ s t : State, step s = .next t →
    (s.done = false → t.done = true → performed s = some .halt) ∧
    (s.done = true → t.done = false → performed s = some .start ∨ nextEvent s = .reset) ∧
    (s.busy = false → t.busy = true → performed s = some .start) ∧
    (s.busy = true → t.busy = false → performed s = some .halt ∨ nextEvent s = .reset)

/-- 44 R146: control transfer in full. -/
def Obligations.ControlTransferInFull : Prop :=
  ∀ s t : State, step s = .next t → nextEvent s ≠ .reset →
    (performed s = none → t.pc = s.pc) ∧
    (∀ i, performed s = some i → i ≠ .halt → i ≠ .start → t.pc = s.pc + 1#8) ∧
    (performed s = some .halt → t.pc = s.pc ∧ t.busy = false) ∧
    (performed s = some .start → t.pc = if s.busy then s.pc else 0#8)

/-- 20 R50, R60, 44 R140: a byte of `M` changes only by a host write while `BUSY = 0`, or by reset. -/
def Obligations.MessageSpaceChangesOnlyByTheIdleHost : Prop :=
  ∀ s t : State, step s = .next t → ∀ k : Nat, t.m.read? k ≠ s.m.read? k →
    nextEvent s = .reset ∨ (s.busy = false ∧ ∃ (j : Fin 96) (b : Byte), j.val = k ∧ nextEvent s = .host (.writeM j b))

/-- 44 R135, R138: apart from reset, only the sequencer computes. A step of the host leaves `W`, `x`, `HV`, `OUT` and
`pc`, unless it is START; and what is written after any such step, START's included, was written before, with the same
value. -/
def Obligations.OnlyTheSequencerComputes : Prop :=
  ∀ s t : State, step s = .next t → nextEvent s ≠ .reset → nextEvent s ≠ .sequencer →
    (performed s ≠ some .start → t.w = s.w ∧ t.x = s.x ∧ t.hv = s.hv ∧ SameBytes t.out s.out ∧ t.pc = s.pc) ∧
    ∀ i, ((t.wElem i).written = true → t.wElem i = s.wElem i) ∧ ((t.xElem i).written = true → t.xElem i = s.xElem i) ∧
      ((t.hvElem i).written = true → t.hvElem i = s.hvElem i) ∧ (∀ b, t.out.read? i = some b → s.out.read? i = some b)

/-- The model's own field (log 2): no step changes the treatment of unwritten reads. -/
def Obligations.TreatmentOfUnwrittenReadsIsConstant : Prop :=
  ∀ s t : State, step s = .next t → t.unwrittenReads = s.unwrittenReads

/-! A call -/

/-- 44 R147, the number of steps being the spec's own inference: a call begins at a START that finds the block idle and
takes 149 turns of the sequencer, those of `CORE` in order, whatever the input and whatever the host does meanwhile (20
R60); and what its end state holds. -/
def Obligations.CallTakes149Steps : Prop :=
  ∀ (s : State) (n : Nat), s.busy = false → nextEvent s = .host (.writeCtrl 1#1) → EndsACall n s → MLoaded s →
    (instrTrace n s).filter (fun i => i != .start) = coreProgram ∧
    (∀ k, 0 < k → k < n → ∃ t, runSteps k s = .next t ∧ t.pc.toNat = (events k s).count .sequencer ∧ t.busy = true) ∧
    ∃ t, runSteps n s = .next t ∧ t.pc.toNat = 148 ∧ t.busy = false ∧ t.done = true ∧
      (∀ i < 80, t.isWritten (.w i) = true) ∧ (∀ i < 8, t.isWritten (.x i) = true) ∧
      (∀ i < 8, t.isWritten (.hv i) = true) ∧ (∀ k < 64, t.isWritten (.out k) = true) ∧ SameBytes t.m s.m

/-- 44 R144: the 149 turns of the sequencer leave in `OUT` the bytes the micro-operation rules give as a function of the
message, whatever the host does meanwhile (20 R60, 44 R138, R140). -/
def Obligations.CallComputesTheHashFunction : Prop :=
  ∀ (s : State) (n : Nat) (msg : List Byte), s.busy = true → s.pc = 0#8 → EndsACall n s → msg.length = 96 →
    (∀ k < 96, s.m.read? k = msg[k]?) →
    ∃ t, runSteps n s = .next t ∧ t.done = true ∧ ∀ k < 64, t.out.read? k = (hashBytes msg)[k]?

/-- 00 R12, 70 R176: the bytes delivered depend on `M` at START and on nothing else: not on the rest of the state, and
not on what the host does during the call. -/
def Obligations.ResultDependsOnlyOnTheMessage : Prop :=
  ∀ (s s' : State) (n n' : Nat), s.busy = false → s'.busy = false → nextEvent s = .host (.writeCtrl 1#1) →
    nextEvent s' = .host (.writeCtrl 1#1) → EndsACall n s → EndsACall n' s' → MLoaded s →
    (∀ k < 96, s.m.read? k = s'.m.read? k) →
    ∃ t t', runSteps n s = .next t ∧ runSteps n' s' = .next t' ∧ t.done = true ∧ t'.done = true ∧
      ∀ k < 64, t.out.read? k = t'.out.read? k

/-- 44 R144, with the number of turns and polls of log 18: the host procedure from any idle state delivers the
function's 64 bytes. -/
def Obligations.HashProcedureDeliversTheHash : Prop :=
  ∀ (s : State) (n p d : List Byte), n.length = 32 → p.length = 32 → d.length = 32 → s.busy = false →
    s.agenda = hashScript n p d →
    ∃ t, runSteps (hashScript n p d).length s = .next t ∧ t.agenda = [] ∧ t.done = true ∧
      (t.replies.take 64).reverse = (hash n p d).map HostReply.byte ∧
      t.replies.drop 64 = .status 0b10#2 :: s.replies

/-- 43 R127: the result is 64 bytes for every valid input, three lists of 32 bytes. That it is so for lists of other
lengths too, which the spec gives no meaning, is the model's choice (log 21). -/
def Obligations.HashIsAlways64Bytes : Prop :=
  ∀ n p d : List Byte, (hash n p d).length = 64

/-- 60 R150, R152: `InvalidLength`, code 1, unless all three lengths are 32; else no error, code 0, and the host goes on
to `HASH`, as the script of log 18, whether or not a call is running (the model's choice, log 23). -/
def Obligations.HashDynChecksTheLengths : Prop :=
  ∀ (s : State) (n p d : List Byte),
    ((n.length ≠ 32 ∨ p.length ≠ 32 ∨ d.length ≠ 32) →
      hashDyn n p d s = .error .invalidLength ∧ hashDynCode (hashDyn n p d s) = 1) ∧
    (n.length = 32 → p.length = 32 → d.length = 32 →
      hashDyn n p d s = .ok { s with agenda := s.agenda ++ hashScript n p d } ∧ hashDynCode (hashDyn n p d s) = 0)

/-- 41 R101: SCHED is a function of `W[0..15]` and does not change them. -/
def Obligations.ScheduleIsAFunctionOfTheBlock : Prop :=
  ∀ s s' : State, (∀ j < 16, s.isWritten (.w j) = true) → (∀ j < 16, s'.isWritten (.w j) = true) →
    (∀ j < 16, s.wVal j = s'.wVal j) →
    ∃ t t', execSeq sched s = .next t ∧ execSeq sched s' = .next t' ∧ (∀ j < 80, t.wElem j = t'.wElem j) ∧
      ∀ j < 16, t.wElem j = s.wElem j

/-- 42 R113: after COMPRESS the working registers are a function of `W` alone. -/
def Obligations.CompressionIsAFunctionOfTheSchedule : Prop :=
  ∀ s s' : State, (∀ j < 80, s.isWritten (.w j) = true) → (∀ j < 80, s'.isWritten (.w j) = true) →
    (∀ j < 80, s.wVal j = s'.wVal j) →
    ∃ t t', execSeq compress s = .next t ∧ execSeq compress s' = .next t' ∧ t.x = t'.x

/-- 40 R93 (the spec's own inference): after ASM, `M` is recoverable from `W[0..11]`. -/
def Obligations.MessageIsRecoverableFromTheBlock : Prop :=
  ∀ s t : State, MLoaded s → exec .asm s = .next t →
    ∀ j < 12, ∀ k < 8, s.m.read? (8 * j + k) = some (wordByte (t.wVal j) k)

/-- 41 R103 (the spec's own inference): what the fixed padding words make of the first two expanded words. -/
def Obligations.FirstExpandedWordsFromThePadding : Prop :=
  ∀ s t u v : State, exec .asm s = .next t → exec (.exp 16#7) t = .next u → exec (.exp 17#7) u = .next v →
    v.wVal 16 = t.wVal 0 + sigma0 (t.wVal 1) + t.wVal 9 ∧
    v.wVal 17 = t.wVal 1 + sigma0 (t.wVal 2) + t.wVal 10 + 0x006000000000180c#64

/-- 42 R115 (the spec's own inference): the fused round 0 gives the same registers as INIT then RND 0, with the
constants of the rule. -/
def Obligations.FusedRoundZeroIsTheUniformForm : Prop :=
  ∀ s t u : State, exec .init s = .next t → exec (.rnd 0#7) t = .next u →
    u.xVal 0 = 0x954d6b38bcfcddf5#64 + s.wVal 0 ∧ u.xVal 4 = 0xf7689eb47ab51f91#64 + s.wVal 0 ∧
    u.xVal 1 = iv 0 ∧ u.xVal 2 = iv 1 ∧ u.xVal 3 = iv 2 ∧ u.xVal 5 = iv 4 ∧ u.xVal 6 = iv 5 ∧ u.xVal 7 = iv 6

/-- 43 R128 (the spec's own inference): FIN and SER may be merged. -/
def Obligations.FinThenSerIsOneStep : Prop :=
  ∀ s t u : State, exec .fin s = .next t → exec .ser t = .next u →
    ∀ i < 8, ∀ k < 8, u.out.read? (8 * i + k) = some (wordByte (iv i + s.xVal i) k)

/-- 41 R102 (the spec's own inference): two EXP, neither a tap of the other, may be performed in either order. -/
def Obligations.IndependentExpansionsCommute : Prop :=
  ∀ (s : State) (i j : BitVec 7), expIndexOk i → expIndexOk j → i ≠ j →
    ¬ Reads (.exp i) (.w j.toNat) → ¬ Reads (.exp j) (.w i.toNat) →
    Readable (.exp i) s → Readable (.exp j) s →
    ∃ t, execSeq [.exp i, .exp j] s = .next t ∧ execSeq [.exp j, .exp i] s = .next t

/-- 42 R114 (the spec's own inference): an EXP may be interleaved with a round that does not use its word. -/
def Obligations.ExpansionCommutesWithARound : Prop :=
  ∀ (s : State) (i r : BitVec 7), expIndexOk i → rndIndexOk r → i ≠ r → Readable (.exp i) s → Readable (.rnd r) s →
    ∃ t, execSeq [.exp i, .rnd r] s = .next t ∧ execSeq [.rnd r, .exp i] s = .next t

/-- 42 R116, 70 R177: which instructions run does not depend on data. That how long they take does not either rests on
the model's choice that a step's duration is a function of the instruction alone (log 15): R177 (3) lets a model only
record it as an assumption; what other events count is its choice too (log 24). -/
def Obligations.ControlAndTimeIgnoreData : Prop :=
  ∀ (n : Nat) (s s' t t' : State), s.pc = s'.pc → s.busy = s'.busy → s.agenda = s'.agenda →
    runSteps n s = .next t → runSteps n s' = .next t' →
    instrTrace n s = instrTrace n s' ∧ runDuration n s = runDuration n s' ∧
      t.pc = t'.pc ∧ t.busy = t'.busy ∧ t.agenda = t'.agenda

/-- 60 R160, in the form of log 17: any interleaving gives each instance what it gets alone. -/
def Obligations.InstancesShareNothing : Prop :=
  ∀ (order : List Nat) (cs : List State) (j : Nat),
    (runInstances order cs)[j]? = (cs[j]?).map (runAlone (order.count j))

/-! Words and constants -/

/-- 00 R8: bit i of a right rotation by n is bit (i + n) mod 64. -/
def Obligations.RotationMovesBits : Prop :=
  ∀ (x : Word) (n i : Nat), 0 < n → n < 64 → i < 64 → (rotr x n).getLsbD i = x.getLsbD ((i + n) % 64)

/-- 00 R9: the bytes of a word and the word of eight bytes are inverse. -/
def Obligations.BytesAndWordsAreInverse : Prop :=
  (∀ v : Word, be64 (byteOf 0 v) (byteOf 1 v) (byteOf 2 v) (byteOf 3 v) (byteOf 4 v) (byteOf 5 v) (byteOf 6 v)
    (byteOf 7 v) = v) ∧
  (∀ (b : Nat → Byte) (k : Nat), k < 8 →
    byteOf k (be64 (b 0) (b 1) (b 2) (b 3) (b 4) (b 5) (b 6) (b 7)) = b k)

/-- 42 R111, corner cases 3 and 4 (the spec's own inference): other forms of `Ch` and `Maj`. -/
def Obligations.ChooseAndMajorityForms : Prop :=
  ∀ x y z : Word,
    choose x y z = (x &&& y) ||| (~~~x &&& z) ∧ choose x y z = (x &&& y) + (~~~x &&& z) ∧
    majority x y z = (x &&& y) ||| (x &&& z) ||| (y &&& z) ∧ majority x y z = (x &&& (y ||| z)) ||| (y &&& z)

/-- 10_state R30, R31 (the spec's general knowledge, log 14): the constants are the fractional parts of square and
cube roots of the first primes. -/
def Obligations.ConstantsAreRootsOfPrimes : Prop :=
  (∀ i < 8, ∃ q : Nat, q ^ 2 ≤ primes80.getD i 0 * 2 ^ 128 ∧ primes80.getD i 0 * 2 ^ 128 < (q + 1) ^ 2 ∧
    (iv i).toNat = q % 2 ^ 64) ∧
  (∀ r < 80, ∃ q : Nat, q ^ 3 ≤ primes80.getD r 0 * 2 ^ 192 ∧ primes80.getD r 0 * 2 ^ 192 < (q + 1) ^ 3 ∧
    (kConst r).toNat = q % 2 ^ 64)
end

