-- ==== Sys2Proof/Laws/State.lean ====
section
/-! SUPPORT. One lemma per field per update of the state, each true by unfolding once. -/
namespace Sys2Proof.Machine

/-! `writeW` -/

@[simp] theorem State.writeW_m (s : State) (i : Nat) (v : Word) :
    (s.writeW i v).m = s.m := rfl
@[simp] theorem State.writeW_w (s : State) (i : Nat) (v : Word) :
    (s.writeW i v).w = s.w.setIfInBounds i ⟨v, true⟩ := rfl
@[simp] theorem State.writeW_x (s : State) (i : Nat) (v : Word) :
    (s.writeW i v).x = s.x := rfl
@[simp] theorem State.writeW_hv (s : State) (i : Nat) (v : Word) :
    (s.writeW i v).hv = s.hv := rfl
@[simp] theorem State.writeW_out (s : State) (i : Nat) (v : Word) :
    (s.writeW i v).out = s.out := rfl
@[simp] theorem State.writeW_pc (s : State) (i : Nat) (v : Word) :
    (s.writeW i v).pc = s.pc := rfl
@[simp] theorem State.writeW_busy (s : State) (i : Nat) (v : Word) :
    (s.writeW i v).busy = s.busy := rfl
@[simp] theorem State.writeW_done (s : State) (i : Nat) (v : Word) :
    (s.writeW i v).done = s.done := rfl
@[simp] theorem State.writeW_unwrittenReads (s : State) (i : Nat) (v : Word) :
    (s.writeW i v).unwrittenReads = s.unwrittenReads := rfl
@[simp] theorem State.writeW_agenda (s : State) (i : Nat) (v : Word) :
    (s.writeW i v).agenda = s.agenda := rfl
@[simp] theorem State.writeW_replies (s : State) (i : Nat) (v : Word) :
    (s.writeW i v).replies = s.replies := rfl

/-! `writeX` -/

@[simp] theorem State.writeX_m (s : State) (f : Nat → Word) :
    (s.writeX f).m = s.m := rfl
@[simp] theorem State.writeX_w (s : State) (f : Nat → Word) :
    (s.writeX f).w = s.w := rfl
@[simp] theorem State.writeX_x (s : State) (f : Nat → Word) :
    (s.writeX f).x = written8 f := rfl
@[simp] theorem State.writeX_hv (s : State) (f : Nat → Word) :
    (s.writeX f).hv = s.hv := rfl
@[simp] theorem State.writeX_out (s : State) (f : Nat → Word) :
    (s.writeX f).out = s.out := rfl
@[simp] theorem State.writeX_pc (s : State) (f : Nat → Word) :
    (s.writeX f).pc = s.pc := rfl
@[simp] theorem State.writeX_busy (s : State) (f : Nat → Word) :
    (s.writeX f).busy = s.busy := rfl
@[simp] theorem State.writeX_done (s : State) (f : Nat → Word) :
    (s.writeX f).done = s.done := rfl
@[simp] theorem State.writeX_unwrittenReads (s : State) (f : Nat → Word) :
    (s.writeX f).unwrittenReads = s.unwrittenReads := rfl
@[simp] theorem State.writeX_agenda (s : State) (f : Nat → Word) :
    (s.writeX f).agenda = s.agenda := rfl
@[simp] theorem State.writeX_replies (s : State) (f : Nat → Word) :
    (s.writeX f).replies = s.replies := rfl

/-! `writeHv` -/

@[simp] theorem State.writeHv_m (s : State) (f : Nat → Word) :
    (s.writeHv f).m = s.m := rfl
@[simp] theorem State.writeHv_w (s : State) (f : Nat → Word) :
    (s.writeHv f).w = s.w := rfl
@[simp] theorem State.writeHv_x (s : State) (f : Nat → Word) :
    (s.writeHv f).x = s.x := rfl
@[simp] theorem State.writeHv_hv (s : State) (f : Nat → Word) :
    (s.writeHv f).hv = written8 f := rfl
@[simp] theorem State.writeHv_out (s : State) (f : Nat → Word) :
    (s.writeHv f).out = s.out := rfl
@[simp] theorem State.writeHv_pc (s : State) (f : Nat → Word) :
    (s.writeHv f).pc = s.pc := rfl
@[simp] theorem State.writeHv_busy (s : State) (f : Nat → Word) :
    (s.writeHv f).busy = s.busy := rfl
@[simp] theorem State.writeHv_done (s : State) (f : Nat → Word) :
    (s.writeHv f).done = s.done := rfl
@[simp] theorem State.writeHv_unwrittenReads (s : State) (f : Nat → Word) :
    (s.writeHv f).unwrittenReads = s.unwrittenReads := rfl
@[simp] theorem State.writeHv_agenda (s : State) (f : Nat → Word) :
    (s.writeHv f).agenda = s.agenda := rfl
@[simp] theorem State.writeHv_replies (s : State) (f : Nat → Word) :
    (s.writeHv f).replies = s.replies := rfl

/-! `writeOut` -/

@[simp] theorem State.writeOut_m (s : State) (f : Nat → Word) :
    (s.writeOut f).m = s.m := by simp only [State.writeOut]
@[simp] theorem State.writeOut_w (s : State) (f : Nat → Word) :
    (s.writeOut f).w = s.w := by simp only [State.writeOut]
@[simp] theorem State.writeOut_x (s : State) (f : Nat → Word) :
    (s.writeOut f).x = s.x := by simp only [State.writeOut]
@[simp] theorem State.writeOut_hv (s : State) (f : Nat → Word) :
    (s.writeOut f).hv = s.hv := by simp only [State.writeOut]
@[simp] theorem State.writeOut_out (s : State) (f : Nat → Word) :
    (s.writeOut f).out = serialize s.out f := by simp only [State.writeOut]
@[simp] theorem State.writeOut_pc (s : State) (f : Nat → Word) :
    (s.writeOut f).pc = s.pc := by simp only [State.writeOut]
@[simp] theorem State.writeOut_busy (s : State) (f : Nat → Word) :
    (s.writeOut f).busy = s.busy := by simp only [State.writeOut]
@[simp] theorem State.writeOut_done (s : State) (f : Nat → Word) :
    (s.writeOut f).done = s.done := by simp only [State.writeOut]
@[simp] theorem State.writeOut_unwrittenReads (s : State) (f : Nat → Word) :
    (s.writeOut f).unwrittenReads = s.unwrittenReads := by simp only [State.writeOut]
@[simp] theorem State.writeOut_agenda (s : State) (f : Nat → Word) :
    (s.writeOut f).agenda = s.agenda := by simp only [State.writeOut]
@[simp] theorem State.writeOut_replies (s : State) (f : Nat → Word) :
    (s.writeOut f).replies = s.replies := by simp only [State.writeOut]

/-! `advance` -/

@[simp] theorem State.advance_m (s : State) :
    s.advance.m = s.m := rfl
@[simp] theorem State.advance_w (s : State) :
    s.advance.w = s.w := rfl
@[simp] theorem State.advance_x (s : State) :
    s.advance.x = s.x := rfl
@[simp] theorem State.advance_hv (s : State) :
    s.advance.hv = s.hv := rfl
@[simp] theorem State.advance_out (s : State) :
    s.advance.out = s.out := rfl
@[simp] theorem State.advance_pc (s : State) :
    s.advance.pc = s.pc + 1#8 := rfl
@[simp] theorem State.advance_busy (s : State) :
    s.advance.busy = s.busy := rfl
@[simp] theorem State.advance_done (s : State) :
    s.advance.done = s.done := rfl
@[simp] theorem State.advance_unwrittenReads (s : State) :
    s.advance.unwrittenReads = s.unwrittenReads := rfl
@[simp] theorem State.advance_agenda (s : State) :
    s.advance.agenda = s.agenda := rfl
@[simp] theorem State.advance_replies (s : State) :
    s.advance.replies = s.replies := rfl

/-! `unmarkData` -/

@[simp] theorem State.unmarkData_m (s : State) :
    s.unmarkData.m = s.m := rfl
@[simp] theorem State.unmarkData_w (s : State) :
    s.unmarkData.w = Block.reset.w := rfl
@[simp] theorem State.unmarkData_x (s : State) :
    s.unmarkData.x = Block.reset.x := rfl
@[simp] theorem State.unmarkData_hv (s : State) :
    s.unmarkData.hv = Block.reset.hv := rfl
@[simp] theorem State.unmarkData_out (s : State) :
    s.unmarkData.out = Block.reset.out := rfl
@[simp] theorem State.unmarkData_pc (s : State) :
    s.unmarkData.pc = s.pc := rfl
@[simp] theorem State.unmarkData_busy (s : State) :
    s.unmarkData.busy = s.busy := rfl
@[simp] theorem State.unmarkData_done (s : State) :
    s.unmarkData.done = s.done := rfl
@[simp] theorem State.unmarkData_unwrittenReads (s : State) :
    s.unmarkData.unwrittenReads = s.unwrittenReads := rfl
@[simp] theorem State.unmarkData_agenda (s : State) :
    s.unmarkData.agenda = s.agenda := rfl
@[simp] theorem State.unmarkData_replies (s : State) :
    s.unmarkData.replies = s.replies := rfl

/-! `setRunning` -/

@[simp] theorem State.setRunning_m (s : State) :
    s.setRunning.m = s.m := rfl
@[simp] theorem State.setRunning_w (s : State) :
    s.setRunning.w = s.w := rfl
@[simp] theorem State.setRunning_x (s : State) :
    s.setRunning.x = s.x := rfl
@[simp] theorem State.setRunning_hv (s : State) :
    s.setRunning.hv = s.hv := rfl
@[simp] theorem State.setRunning_out (s : State) :
    s.setRunning.out = s.out := rfl
@[simp] theorem State.setRunning_pc (s : State) :
    s.setRunning.pc = s.pc := rfl
@[simp] theorem State.setRunning_busy (s : State) :
    s.setRunning.busy = true := rfl
@[simp] theorem State.setRunning_done (s : State) :
    s.setRunning.done = false := rfl
@[simp] theorem State.setRunning_unwrittenReads (s : State) :
    s.setRunning.unwrittenReads = s.unwrittenReads := rfl
@[simp] theorem State.setRunning_agenda (s : State) :
    s.setRunning.agenda = s.agenda := rfl
@[simp] theorem State.setRunning_replies (s : State) :
    s.setRunning.replies = s.replies := rfl

/-! `setFinished` -/

@[simp] theorem State.setFinished_m (s : State) :
    s.setFinished.m = s.m := rfl
@[simp] theorem State.setFinished_w (s : State) :
    s.setFinished.w = s.w := rfl
@[simp] theorem State.setFinished_x (s : State) :
    s.setFinished.x = s.x := rfl
@[simp] theorem State.setFinished_hv (s : State) :
    s.setFinished.hv = s.hv := rfl
@[simp] theorem State.setFinished_out (s : State) :
    s.setFinished.out = s.out := rfl
@[simp] theorem State.setFinished_pc (s : State) :
    s.setFinished.pc = s.pc := rfl
@[simp] theorem State.setFinished_busy (s : State) :
    s.setFinished.busy = false := rfl
@[simp] theorem State.setFinished_done (s : State) :
    s.setFinished.done = true := rfl
@[simp] theorem State.setFinished_unwrittenReads (s : State) :
    s.setFinished.unwrittenReads = s.unwrittenReads := rfl
@[simp] theorem State.setFinished_agenda (s : State) :
    s.setFinished.agenda = s.agenda := rfl
@[simp] theorem State.setFinished_replies (s : State) :
    s.setFinished.replies = s.replies := rfl

/-! `applyReset` -/

@[simp] theorem State.applyReset_m (s : State) :
    s.applyReset.m = Block.reset.m := rfl
@[simp] theorem State.applyReset_w (s : State) :
    s.applyReset.w = Block.reset.w := rfl
@[simp] theorem State.applyReset_x (s : State) :
    s.applyReset.x = Block.reset.x := rfl
@[simp] theorem State.applyReset_hv (s : State) :
    s.applyReset.hv = Block.reset.hv := rfl
@[simp] theorem State.applyReset_out (s : State) :
    s.applyReset.out = Block.reset.out := rfl
@[simp] theorem State.applyReset_pc (s : State) :
    s.applyReset.pc = Block.reset.pc := rfl
@[simp] theorem State.applyReset_busy (s : State) :
    s.applyReset.busy = Block.reset.busy := rfl
@[simp] theorem State.applyReset_done (s : State) :
    s.applyReset.done = Block.reset.done := rfl
@[simp] theorem State.applyReset_unwrittenReads (s : State) :
    s.applyReset.unwrittenReads = s.unwrittenReads := rfl
@[simp] theorem State.applyReset_agenda (s : State) :
    s.applyReset.agenda = s.agenda := rfl
@[simp] theorem State.applyReset_replies (s : State) :
    s.applyReset.replies = s.replies := rfl

/-! `reply` -/

@[simp] theorem State.reply_m (s : State) (r : HostReply) :
    (s.reply r).m = s.m := rfl
@[simp] theorem State.reply_w (s : State) (r : HostReply) :
    (s.reply r).w = s.w := rfl
@[simp] theorem State.reply_x (s : State) (r : HostReply) :
    (s.reply r).x = s.x := rfl
@[simp] theorem State.reply_hv (s : State) (r : HostReply) :
    (s.reply r).hv = s.hv := rfl
@[simp] theorem State.reply_out (s : State) (r : HostReply) :
    (s.reply r).out = s.out := rfl
@[simp] theorem State.reply_pc (s : State) (r : HostReply) :
    (s.reply r).pc = s.pc := rfl
@[simp] theorem State.reply_busy (s : State) (r : HostReply) :
    (s.reply r).busy = s.busy := rfl
@[simp] theorem State.reply_done (s : State) (r : HostReply) :
    (s.reply r).done = s.done := rfl
@[simp] theorem State.reply_unwrittenReads (s : State) (r : HostReply) :
    (s.reply r).unwrittenReads = s.unwrittenReads := rfl
@[simp] theorem State.reply_agenda (s : State) (r : HostReply) :
    (s.reply r).agenda = s.agenda := rfl
@[simp] theorem State.reply_replies (s : State) (r : HostReply) :
    (s.reply r).replies = r :: s.replies := rfl

/-! Reset -/

@[simp] theorem Block.reset_m : Block.reset.m = [] := rfl
@[simp] theorem Block.reset_w : Block.reset.w = Vector.replicate 80 Marked.unset := rfl
@[simp] theorem Block.reset_x : Block.reset.x = Vector.replicate 8 Marked.unset := rfl
@[simp] theorem Block.reset_hv : Block.reset.hv = Vector.replicate 8 Marked.unset := rfl
@[simp] theorem Block.reset_out : Block.reset.out = [] := rfl
@[simp] theorem Block.reset_pc : Block.reset.pc = 0#8 := rfl
@[simp] theorem Block.reset_busy : Block.reset.busy = false := rfl
@[simp] theorem Block.reset_done : Block.reset.done = false := rfl
@[simp] theorem State.reset_toBlock : State.reset.toBlock = Block.reset := rfl
@[simp] theorem State.reset_unwrittenReads : State.reset.unwrittenReads = .held := rfl
@[simp] theorem State.reset_agenda : State.reset.agenda = [] := rfl
@[simp] theorem State.reset_replies : State.reset.replies = [] := rfl

end Sys2Proof.Machine
end

