-- ==== Sys2Proof/Laws/Memory.lean ====
section
/-! SUPPORT. The byte spaces: read after write, the canonical form, and what the wide writes leave. -/
namespace Sys2Proof.Machine

@[simp] theorem Memory.read?_nil (k : Nat) : Memory.read? [] k = none := rfl

theorem Memory.read?_write (o : Memory) (k j : Nat) (b : Byte) :
    (o.write k b).read? j = if k = j then some b else o.read? j := by
  induction o with
  | nil => simp [Memory.write, Memory.read?]
  | cons c rest ih =>
    unfold Memory.write
    split
    · simp [Memory.read?]
    · split
      · next h => subst h; by_cases hj : c.1 = j <;> simp [Memory.read?, hj]
      · by_cases hj : c.1 = j
        · have : k ≠ j := by omega
          simp [Memory.read?, hj, this]
        · simp [Memory.read?, hj, ih]

/-- A write keeps the canonical form (one entry an address, rising, inside the space). -/
theorem Memory.wf_write {size : Nat} {o : Memory} (h : Memory.wf size o) {k : Nat} (hk : k < size) (b : Byte) :
    Memory.wf size (o.write k b) := by
  have mem : ∀ (o : Memory) (d : Host.Cell), d ∈ o.write k b → d = (k, b) ∨ d ∈ o := by
    intro o d
    induction o with
    | nil => simp [Memory.write]
    | cons c rest ih =>
      unfold Memory.write
      split
      · simp
      · split
        · simp only [List.mem_cons]; tauto
        · simp only [List.mem_cons]; tauto
  refine ⟨?_, fun d hd => ?_⟩
  · obtain ⟨hp, -⟩ := h
    induction o with
    | nil => simp [Memory.write]
    | cons c rest ih =>
      rw [List.pairwise_cons] at hp
      unfold Memory.write
      split
      · next hlt =>
        refine List.pairwise_cons.2 ⟨fun d hd => ?_, List.pairwise_cons.2 hp⟩
        rcases List.mem_cons.1 hd with rfl | hd
        · exact hlt
        · exact Nat.lt_trans hlt (hp.1 d hd)
      · split
        · next heq => exact List.pairwise_cons.2 ⟨fun d hd => heq ▸ hp.1 d hd, hp.2⟩
        · next hnlt hne =>
          refine List.pairwise_cons.2 ⟨fun d hd => ?_, ih hp.2⟩
          rcases mem rest d hd with rfl | hd
          · exact Nat.lt_of_le_of_ne (Nat.le_of_not_lt hnlt) hne
          · exact hp.1 d hd
  · rcases mem o d hd with rfl | hd
    · exact hk
    · exact h.2 d hd

/-- What `MemWrite(OUT[a], 8, v)` leaves: the eight bytes of `v` at `a`, every other byte as it was. -/
theorem read?_memWrite8 (o : Memory) (a : Nat) (v : Word) (j : Nat) :
    (memWrite8 o a v).read? j = if a ≤ j ∧ j < a + 8 then some (byteOf (j - a) v) else o.read? j := by
  have go : ∀ n : Nat, ((List.range n).foldl (fun o k => o.write (a + k) (byteOf k v)) o).read? j
      = if a ≤ j ∧ j < a + n then some (byteOf (j - a) v) else o.read? j := by
    intro n
    induction n with
    | zero => simp
    | succ n ih =>
      rw [List.range_succ, List.foldl_append, List.foldl_cons, List.foldl_nil, Memory.read?_write, ih]
      by_cases h : a + n = j
      · subst h; simp
      · have : (a ≤ j ∧ j < a + (n + 1)) ↔ (a ≤ j ∧ j < a + n) := by omega
        simp [h, this]
  exact go 8

theorem Memory.wf_memWrite8 {o : Memory} (h : Memory.wf 64 o) {a : Nat} (ha : a + 8 ≤ 64) (v : Word) :
    Memory.wf 64 (memWrite8 o a v) := by
  have go : ∀ n : Nat, n ≤ 8 →
      Memory.wf 64 ((List.range n).foldl (fun o k => o.write (a + k) (byteOf k v)) o) := by
    intro n
    induction n with
    | zero => exact fun _ => h
    | succ n ih =>
      intro hn
      rw [List.range_succ, List.foldl_append, List.foldl_cons, List.foldl_nil]
      exact Memory.wf_write (ih (by omega)) (by omega) _
  exact go 8 (Nat.le_refl 8)

/-- What SER's 64 writes leave in `OUT`. -/
theorem read?_serialize (o : Memory) (f : Nat → Word) (j : Nat) :
    (serialize o f).read? j = if j < 64 then some (byteOf (j % 8) (f (j / 8))) else o.read? j := by
  have go : ∀ n : Nat, ((List.range n).foldl (fun o i => memWrite8 o (8 * i) (f i)) o).read? j
      = if j < 8 * n then some (byteOf (j % 8) (f (j / 8))) else o.read? j := by
    intro n
    induction n with
    | zero => simp
    | succ n ih =>
      rw [List.range_succ, List.foldl_append, List.foldl_cons, List.foldl_nil, read?_memWrite8, ih]
      by_cases h : 8 * n ≤ j ∧ j < 8 * n + 8
      · have h1 : j / 8 = n := by omega
        have h2 : j - 8 * n = j % 8 := by omega
        have h3 : j < 8 * (n + 1) := by omega
        simp [h, h1, h2, h3]
      · have h3 : (j < 8 * (n + 1)) ↔ (j < 8 * n) := by omega
        simp [h, h3]
  exact go 8

theorem Memory.wf_serialize {o : Memory} (h : Memory.wf 64 o) (f : Nat → Word) : Memory.wf 64 (serialize o f) := by
  have go : ∀ n : Nat, n ≤ 8 →
      Memory.wf 64 ((List.range n).foldl (fun o i => memWrite8 o (8 * i) (f i)) o) := by
    intro n
    induction n with
    | zero => exact fun _ => h
    | succ n ih =>
      intro hn
      rw [List.range_succ, List.foldl_append, List.foldl_cons, List.foldl_nil]
      exact Memory.wf_memWrite8 (ih (by omega)) (by omega) _
  exact go 8 (Nat.le_refl 8)

/-- A host write keeps the canonical form of `M`. -/
theorem Memory.wf_hostWriteM {s : State} (h : Memory.wf 96 s.m) {k : Nat} (hk : k < 96) (b : Byte) :
    Memory.wf 96 (s.hostWriteM k b).m := by
  unfold State.hostWriteM
  split
  · exact h
  · exact Memory.wf_write h hk b

/-- The reset state's spaces are canonical. -/
theorem Memory.wf_reset : Memory.wf 96 State.reset.m ∧ Memory.wf 64 State.reset.out := by decide

end Sys2Proof.Machine
end

