-- ==== Sys2Proof/Laws/Files.lean ====
section
/-! SUPPORT. The register files: what a write leaves in every element, and what clearing the marks leaves. -/
namespace Sys2Proof.Machine

/-- An element of a file after a write to one place. -/
theorem getD_setIfInBounds (v : Vector Marked 80) (i j : Nat) (c : Marked) :
    (v.setIfInBounds i c).getD j Marked.unset = if i = j ∧ i < 80 then c else v.getD j Marked.unset := by
  by_cases hj : j < 80
  · by_cases h : i = j
    · subst h; simp [Vector.getD, hj]
    · simp [Vector.getD, hj, h]
  · have : ¬(i = j ∧ i < 80) := by omega
    simp [Vector.getD, hj, this]

@[simp] theorem State.wElem_writeW (s : State) (i j : Nat) (v : Word) :
    (s.writeW i v).wElem j = if i = j ∧ i < 80 then ⟨v, true⟩ else s.wElem j := getD_setIfInBounds _ _ _ _

@[simp] theorem State.xElem_writeW (s : State) (i j : Nat) (v : Word) : (s.writeW i v).xElem j = s.xElem j := rfl
@[simp] theorem State.hvElem_writeW (s : State) (i j : Nat) (v : Word) : (s.writeW i v).hvElem j = s.hvElem j := rfl

theorem getD_written8 (f : Nat → Word) (i : Nat) :
    (written8 f).getD i Marked.unset = if i < 8 then ⟨f i, true⟩ else Marked.unset := by
  by_cases h : i < 8
  · simp only [h, if_true]
    have : i = 0 ∨ i = 1 ∨ i = 2 ∨ i = 3 ∨ i = 4 ∨ i = 5 ∨ i = 6 ∨ i = 7 := by omega
    rcases this with rfl | rfl | rfl | rfl | rfl | rfl | rfl | rfl <;> rfl
  · simp [Vector.getD, h]

@[simp] theorem State.xElem_writeX (s : State) (f : Nat → Word) (i : Nat) :
    (s.writeX f).xElem i = if i < 8 then ⟨f i, true⟩ else Marked.unset := getD_written8 f i

@[simp] theorem State.wElem_writeX (s : State) (f : Nat → Word) (i : Nat) : (s.writeX f).wElem i = s.wElem i := rfl
@[simp] theorem State.hvElem_writeX (s : State) (f : Nat → Word) (i : Nat) : (s.writeX f).hvElem i = s.hvElem i := rfl

@[simp] theorem State.hvElem_writeHv (s : State) (f : Nat → Word) (i : Nat) :
    (s.writeHv f).hvElem i = if i < 8 then ⟨f i, true⟩ else Marked.unset := getD_written8 f i

@[simp] theorem State.wElem_writeHv (s : State) (f : Nat → Word) (i : Nat) : (s.writeHv f).wElem i = s.wElem i := rfl
@[simp] theorem State.xElem_writeHv (s : State) (f : Nat → Word) (i : Nat) : (s.writeHv f).xElem i = s.xElem i := rfl

/-- Every element of a file that reset or START has cleared is unset, inside the file and outside. -/
@[simp] theorem getD_replicate_unset (n i : Nat) :
    (Vector.replicate n Marked.unset).getD i Marked.unset = Marked.unset := by
  by_cases h : i < n <;> simp [Vector.getD, h]

@[simp] theorem State.wElem_unmarkData (s : State) (i : Nat) : s.unmarkData.wElem i = Marked.unset :=
  getD_replicate_unset _ i
@[simp] theorem State.xElem_unmarkData (s : State) (i : Nat) : s.unmarkData.xElem i = Marked.unset :=
  getD_replicate_unset _ i
@[simp] theorem State.hvElem_unmarkData (s : State) (i : Nat) : s.unmarkData.hvElem i = Marked.unset :=
  getD_replicate_unset _ i
@[simp] theorem State.wElem_applyReset (s : State) (i : Nat) : s.applyReset.wElem i = Marked.unset :=
  getD_replicate_unset _ i
@[simp] theorem State.xElem_applyReset (s : State) (i : Nat) : s.applyReset.xElem i = Marked.unset :=
  getD_replicate_unset _ i
@[simp] theorem State.hvElem_applyReset (s : State) (i : Nat) : s.applyReset.hvElem i = Marked.unset :=
  getD_replicate_unset _ i

/-- An element outside a file is unset. -/
theorem State.wElem_of_le (s : State) {i : Nat} (h : 80 ≤ i) : s.wElem i = Marked.unset := by
  simp [State.wElem, Vector.getD, Nat.not_lt.2 h]

@[simp] theorem State.wElem_advance (s : State) (i : Nat) : s.advance.wElem i = s.wElem i := rfl
@[simp] theorem State.xElem_advance (s : State) (i : Nat) : s.advance.xElem i = s.xElem i := rfl
@[simp] theorem State.hvElem_advance (s : State) (i : Nat) : s.advance.hvElem i = s.hvElem i := rfl

/-- The labels are the registers (10_state R21). -/
theorem State.regs_get (s : State) {i : Nat} (h : i < 8) : s.regs.get i = s.xVal i := by
  have : i = 0 ∨ i = 1 ∨ i = 2 ∨ i = 3 ∨ i = 4 ∨ i = 5 ∨ i = 6 ∨ i = 7 := by omega
  rcases this with rfl | rfl | rfl | rfl | rfl | rfl | rfl | rfl <;> rfl

/-- What ASM's sixteen writes leave in `W`. -/
theorem State.wElem_assembleBlock (s : State) (j : Nat) :
    s.assembleBlock.wElem j =
      if j < 12 then ⟨s.memRead8 (8 * j), true⟩
      else if j = 12 then ⟨pad12, true⟩
      else if j = 13 then ⟨pad13, true⟩
      else if j = 14 then ⟨pad14, true⟩
      else if j = 15 then ⟨pad15, true⟩
      else s.wElem j := by
  have go : ∀ n : Nat, n ≤ 12 →
      ((List.range n).foldl (fun v j => v.setIfInBounds j ⟨s.memRead8 (8 * j), true⟩) s.w).getD j Marked.unset
        = if j < n then ⟨s.memRead8 (8 * j), true⟩ else s.w.getD j Marked.unset := by
    intro n
    induction n with
    | zero => simp
    | succ n ih =>
      intro hn
      rw [List.range_succ, List.foldl_append, List.foldl_cons, List.foldl_nil, getD_setIfInBounds, ih (by omega)]
      by_cases h : n = j
      · subst h; simp; omega
      · have : (j < n + 1) ↔ (j < n) := by omega
        simp [h, this]
  simp only [State.assembleBlock, State.wElem, State.blockWords, getD_setIfInBounds, go 12 (Nat.le_refl 12)]
  by_cases h12 : j < 12
  · have h1 : ¬(15 = j ∧ 15 < 80) := by omega
    have h2 : ¬(14 = j ∧ 14 < 80) := by omega
    have h3 : ¬(13 = j ∧ 13 < 80) := by omega
    have h4 : ¬(12 = j ∧ 12 < 80) := by omega
    simp only [h1, h2, h3, h4, h12, if_true, if_false]
  · by_cases e2 : j = 12
    · subst e2; simp
    by_cases e3 : j = 13
    · subst e3; simp
    by_cases e4 : j = 14
    · subst e4; simp
    by_cases e5 : j = 15
    · subst e5; simp
    simp [h12, e2, e3, e4, e5, Ne.symm e2, Ne.symm e3, Ne.symm e4, Ne.symm e5]

end Sys2Proof.Machine
end

