-- ==== Sys2Proof/Laws/Exec.lean ====
section
/-! SUPPORT. What `exec` can answer, said once: for a well-formed instruction the effect of its rule, or the fault of
an unwritten read. -/
namespace Sys2Proof.Laws
open Sys2Proof.Machine Sys2Proof.Safety

/-- The elements an instruction's meaning checks, in the model's order. -/
def readsList : Instr → List Element
  | .asm => asmReads
  | .exp i => expReads i.toNat
  | .rnd r => rndReads r.toNat
  | .fin => finReads
  | .ser => serReads
  | .init | .halt | .start => []

/-- The state an instruction's meaning leaves when it does not fault. -/
def effectOf : Instr → State → State
  | .asm, s => s.assembleBlock.advance
  | .exp i, s => (s.writeW i.toNat (s.expandedWord i.toNat)).advance
  | .init, s => (s.writeX iv).advance
  | .rnd r, s => (s.writeX (roundRegs s.regs (kConst r.toNat) (s.wVal r.toNat)).get).advance
  | .fin, s => (s.writeHv fun i => iv i + s.xVal i).advance
  | .ser, s => (s.writeOut s.hvVal).advance
  | .halt, s => s.setFinished
  | .start, s => if s.busy then s else { s.unmarkData.setRunning with pc := 0#8 }

/-- ASM changes `W` and the step counter only. -/
theorem effectOf_asm (s : State) : effectOf .asm s = { s with w := s.blockWords, pc := s.pc + 1#8 } := by
  simp only [effectOf, State.advance, State.assembleBlock]

/-- EXP changes one word of `W` and the step counter only. -/
theorem effectOf_exp (i : BitVec 7) (s : State) :
    effectOf (.exp i) s =
      { s with w := s.w.setIfInBounds i.toNat ⟨s.expandedWord i.toNat, true⟩, pc := s.pc + 1#8 } := by
  simp only [effectOf, State.advance, State.writeW]

/-- INIT changes `x` and the step counter only. -/
theorem effectOf_init (s : State) : effectOf .init s = { s with x := written8 iv, pc := s.pc + 1#8 } := by
  simp only [effectOf, State.advance, State.writeX]

/-- RND changes `x` and the step counter only. -/
theorem effectOf_rnd (r : BitVec 7) (s : State) :
    effectOf (.rnd r) s =
      { s with x := written8 (roundRegs s.regs (kConst r.toNat) (s.wVal r.toNat)).get, pc := s.pc + 1#8 } := by
  simp only [effectOf, State.advance, State.writeX]

/-- FIN changes `HV` and the step counter only. -/
theorem effectOf_fin (s : State) :
    effectOf .fin s = { s with hv := written8 fun i => iv i + s.xVal i, pc := s.pc + 1#8 } := by
  simp only [effectOf, State.advance, State.writeHv]

/-- SER changes `OUT` and the step counter only. -/
theorem effectOf_ser (s : State) :
    effectOf .ser s = { s with out := serialize s.out s.hvVal, pc := s.pc + 1#8 } := by
  simp only [effectOf, State.advance, State.writeOut]

/-- HALT changes the status bits only. -/
theorem effectOf_halt (s : State) : effectOf .halt s = { s with busy := false, done := true } := by
  simp only [effectOf, State.setFinished]

/-- A START while busy changes nothing. -/
theorem effectOf_start_busy {s : State} (h : s.busy = true) : effectOf .start s = s := by
  simp only [effectOf, h, if_true]

/-- A START while idle clears the data and begins a call. -/
theorem effectOf_start_idle {s : State} (h : s.busy = false) :
    effectOf .start s =
      { s with
        w := Block.reset.w
        x := Block.reset.x
        hv := Block.reset.hv
        out := Block.reset.out
        pc := 0#8
        busy := true
        done := false } := by
  simp only [effectOf, h, Bool.false_eq_true, if_false, State.setRunning, State.unmarkData]

/-- The model's lists are the table of 70 R176. -/
theorem mem_readsList (i : Instr) (e : Element) : e ∈ readsList i ↔ Reads i e := by
  have file : ∀ (n : Nat) (f : Nat → Element), e ∈ (List.range n).map f ↔ ∃ k < n, e = f k := by
    intro n f
    rw [List.mem_map]
    exact exists_congr fun k => and_congr List.mem_range eq_comm
  cases i with
  | asm => exact file 96 _
  | exp n => simp only [readsList, Reads, expReads, List.mem_cons, List.not_mem_nil, or_false]
  | rnd r =>
    rw [readsList, rndReads, List.mem_append, xReads, file, List.mem_singleton]
    rfl
  | fin => exact file 8 _
  | ser => exact file 8 _
  | init => exact List.mem_nil_iff _
  | halt => exact List.mem_nil_iff _
  | start => exact List.mem_nil_iff _

theorem afterReads_eq_next_iff (s t u : State) (es : List Element) :
    s.afterReads es t = .next u ↔ (∀ e ∈ es, s.mayRead e = true) ∧ u = t := by
  unfold State.afterReads State.faultingRead
  cases hf : es.find? fun e => !s.mayRead e with
  | none =>
    have := List.find?_eq_none.1 hf
    simp only [Bool.not_eq_true', Bool.not_eq_false] at this
    constructor
    · intro h; cases h; exact ⟨this, rfl⟩
    · rintro ⟨-, rfl⟩; rfl
  | some e =>
    have hm := List.mem_of_find?_eq_some hf
    have hw := List.find?_some hf
    constructor
    · intro h; cases h
    · rintro ⟨h, -⟩; simp [h e hm] at hw

/-- An element among the reads that may not be read is named. -/
theorem afterReads_fault {s t : State} {es : List Element} {e : Element} (he : e ∈ es) (hw : s.mayRead e = false) :
    ∃ e' ∈ es, s.mayRead e' = false ∧ s.afterReads es t = .fault (.unwrittenRead e') := by
  unfold State.afterReads State.faultingRead
  cases h : es.find? fun e => !s.mayRead e with
  | none => simpa [hw] using List.find?_eq_none.1 h e he
  | some e' => exact ⟨e', List.mem_of_find?_eq_some h, by simpa using List.find?_some h, rfl⟩

/-- Only ASM reads bytes of `M`, and it reads nothing else. -/
theorem reads_m_iff {i : Instr} {e : Element} (h : Reads i e) : (∃ k, e = .m k) ↔ i = .asm := by
  cases i with
  | asm => obtain ⟨k, -, rfl⟩ := h; simp
  | exp n => obtain rfl | rfl | rfl | rfl := h <;> simp
  | rnd r => obtain ⟨j, -, rfl⟩ | rfl := h <;> simp
  | fin => obtain ⟨j, -, rfl⟩ := h; simp
  | ser => obtain ⟨j, -, rfl⟩ := h; simp
  | init => exact h.elim
  | halt => exact h.elim
  | start => exact h.elim

/-- What may be read, element by element. -/
theorem mayRead_of_reads {i : Instr} {e : Element} (h : Reads i e) (s : State) :
    s.mayRead e = true ↔ (s.unwrittenReads = .held ∧ i ≠ .asm) ∨ s.isWritten e = true := by
  have hm := reads_m_iff h
  unfold State.mayRead
  cases e with
  | m k => simp [hm.1 ⟨k, rfl⟩]
  | w j | x j | hv j | out j =>
    have : i ≠ .asm := fun hi => by simpa using hm.2 hi
    simp [this, or_comm]

/-- `Readable` is `mayRead` of everything read. -/
theorem readable_iff (i : Instr) (s : State) : (∀ e, Reads i e → s.mayRead e = true) ↔ Readable i s := by
  by_cases hh : s.unwrittenReads = .held ∧ i ≠ .asm
  · exact ⟨fun _ => .inl hh, fun _ e he => (mayRead_of_reads he s).2 (.inl hh)⟩
  · refine ⟨fun h => .inr fun e he => ?_, fun h e he => (mayRead_of_reads he s).2 (.inr ?_)⟩
    · exact ((mayRead_of_reads he s).1 (h e he)).resolve_left hh
    · exact h.resolve_left hh e he

theorem exec_of_wf {i : Instr} (h : i.wf = true) (s : State) :
    exec i s = s.afterReads (readsList i) (effectOf i s) := by
  have nil : ∀ t : State, s.afterReads [] t = .next t := fun t => by
    simp [afterReads_eq_next_iff]
  cases i with
  | asm => rfl
  | exp n => exact if_pos (of_decide_eq_true h)
  | init => exact (nil _).symm
  | rnd r => exact if_pos (of_decide_eq_true h)
  | fin => rfl
  | ser => rfl
  | halt => exact (nil _).symm
  | start =>
    rw [readsList, nil]
    simp only [exec, execStart, effectOf]
    split <;> rfl

theorem exec_of_not_wf {i : Instr} (h : i.wf = false) (s : State) :
    ∃ u, encode i = .micro u ∧ exec i s = .fault (.illegalMicroOp u s.pc) := by
  cases i with
  | exp n => exact ⟨_, rfl, if_neg (of_decide_eq_false h)⟩
  | rnd r => exact ⟨_, rfl, if_neg (of_decide_eq_false h)⟩
  | asm | init | fin | ser | halt | start => simp [Instr.wf] at h

/-- Everything `exec` can do when it answers a next state. -/
theorem exec_next_iff (i : Instr) (s t : State) :
    exec i s = .next t ↔ i.wf = true ∧ Readable i s ∧ t = effectOf i s := by
  cases h : i.wf with
  | true => simp only [exec_of_wf h, afterReads_eq_next_iff, mem_readsList, readable_iff, true_and]
  | false =>
    obtain ⟨u, -, hu⟩ := exec_of_not_wf h s
    simp [hu]

end Sys2Proof.Laws
end

