-- ==== Sys2Proof/Laws/Step.lean ====
section
/-! SUPPORT. What a step can do, said once. -/
namespace Sys2Proof.Laws
open Sys2Proof.Machine Sys2Proof.Safety

/-- The state with the event of this step taken off the agenda. -/
def afterEvent (s : State) : State := { s with agenda := s.agenda.tail }

/-- A step performs the next event. -/
theorem step_eq_perform (s : State) : step s = perform (nextEvent s) (afterEvent s) := by
  obtain ⟨block, unwrittenReads, agenda, replies⟩ := s
  cases agenda <;> rfl

@[simp] theorem afterEvent_fetched (s : State) : (afterEvent s).fetched = s.fetched := rfl

/-- Everything a step can do when it answers a next state: it performs an instruction, applies reset, makes a host
access that is no command, or finds the sequencer idle. -/
theorem step_next_cases {s t : State} (h : step s = .next t) :
    (∃ i, performed s = some i ∧ nextEvent s ≠ .reset ∧ exec i (afterEvent s) = .next t ∧
      (i = .start ∨ (nextEvent s = .sequencer ∧ s.busy = true ∧ s.fetched = .ok i))) ∨
    (performed s = none ∧ nextEvent s = .reset ∧ t = (afterEvent s).applyReset) ∨
    (performed s = none ∧ ∃ op, nextEvent s = .host op ∧ t = (afterEvent s).hostAccess op) ∨
    (performed s = none ∧ nextEvent s = .sequencer ∧ s.busy = false ∧ t = afterEvent s) := by
  rw [step_eq_perform] at h
  unfold performed
  cases hev : nextEvent s with
  | reset => rw [hev] at h; cases h; exact .inr (.inl ⟨rfl, rfl, rfl⟩)
  | sequencer =>
    rw [hev] at h
    change sequencerTurn (afterEvent s) = .next t at h
    unfold sequencerTurn at h
    rw [afterEvent_fetched] at h
    change (if s.busy = true then _ else _) = _ at h
    cases hb : s.busy with
    | false => rw [hb] at h; cases h; exact .inr (.inr (.inr ⟨rfl, rfl, rfl, rfl⟩))
    | true =>
      rw [hb, if_pos rfl] at h
      cases hf : s.fetched with
      | error f => rw [hf] at h; cases h
      | ok i =>
        rw [hf] at h
        exact .inl ⟨i, rfl, by simp, h, .inr ⟨rfl, rfl, rfl⟩⟩
  | host op =>
    rw [hev] at h
    change hostTurn op (afterEvent s) = .next t at h
    cases op with
    | writeCtrl b =>
      change ctrlWrite b (afterEvent s) = .next t at h
      unfold ctrlWrite at h
      by_cases hb : b = 1#1
      · have hd : decode (.ctrl b) = .ok .start := if_pos hb
        rw [hd] at h
        simp only [hd]
        exact .inl ⟨.start, rfl, by simp, h, .inl rfl⟩
      · have hd : decode (.ctrl b) = .error .noCommand := if_neg hb
        rw [hd] at h
        cases h
        simp only [hd]
        exact .inr (.inr (.inl ⟨rfl, _, rfl, rfl⟩))
    | readStatus | writeM k b | readM k | readOut k | readCtrl | writeStatus v | writeOut k b =>
      cases h
      exact .inr (.inr (.inl ⟨rfl, _, rfl, rfl⟩))

set_option maxRecDepth 4000 in
/-- What the sequencer fetches at each address of `UROM` (44 R136). -/
theorem fetched_cases {s : State} {i : Instr} (h : s.fetched = .ok i) :
    (s.pc.toNat = 0 ∧ i = .asm) ∨
    (∃ n : BitVec 7, expIndexOk n ∧ s.pc.toNat = n.toNat - 15 ∧ i = .exp n) ∨
    (s.pc.toNat = 65 ∧ i = .init) ∨
    (∃ r : BitVec 7, rndIndexOk r ∧ s.pc.toNat = 66 + r.toNat ∧ i = .rnd r) ∨
    (s.pc.toNat = 146 ∧ i = .fin) ∨ (s.pc.toNat = 147 ∧ i = .ser) ∨ (s.pc.toNat = 148 ∧ i = .halt) := by
  unfold State.fetched at h
  have key : ∀ p : Fin 149, ∀ i : Instr, (urom p.val).bind (fun u => (decode (.micro u)).toOption) = some i →
      (p.val = 0 ∧ i = .asm) ∨ (∃ n : BitVec 7, expIndexOk n ∧ p.val = n.toNat - 15 ∧ i = .exp n) ∨
      (p.val = 65 ∧ i = .init) ∨ (∃ r : BitVec 7, rndIndexOk r ∧ p.val = 66 + r.toNat ∧ i = .rnd r) ∨
      (p.val = 146 ∧ i = .fin) ∨ (p.val = 147 ∧ i = .ser) ∨ (p.val = 148 ∧ i = .halt) := by
    intro p i hi
    have all : ∀ p : Fin 149, (urom p.val).bind (fun u => (decode (.micro u)).toOption) =
        some (if p.val = 0 then .asm else if p.val ≤ 64 then .exp (BitVec.ofNat 7 (p.val + 15))
          else if p.val = 65 then .init else if p.val ≤ 145 then .rnd (BitVec.ofNat 7 (p.val - 66))
          else if p.val = 146 then .fin else if p.val = 147 then .ser else .halt) := by decide
    rw [all p] at hi
    obtain ⟨p, hp⟩ := p
    simp only [Option.some.injEq] at hi ⊢
    subst hi
    split
    · next h => exact .inl ⟨h, rfl⟩
    split
    · next h0 h1 =>
      refine .inr (.inl ⟨_, ?_, ?_, rfl⟩)
      · simp [expIndexOk]; omega
      · simp; omega
    split
    · next h => exact .inr (.inr (.inl ⟨h, rfl⟩))
    split
    · next h =>
      refine .inr (.inr (.inr (.inl ⟨_, ?_, ?_, rfl⟩)))
      · simp [rndIndexOk]; omega
      · simp; omega
    split
    · next h => exact .inr (.inr (.inr (.inr (.inl ⟨h, rfl⟩))))
    split
    · next h => exact .inr (.inr (.inr (.inr (.inr (.inl ⟨h, rfl⟩)))))
    · exact .inr (.inr (.inr (.inr (.inr (.inr ⟨by omega, rfl⟩)))))
  have hp : s.pc.toNat < 149 := by
    by_contra hge
    have : urom s.pc.toNat = none := by
      unfold urom
      repeat rw [if_neg (by omega)]
    rw [this] at h
    cases h
  refine key ⟨s.pc.toNat, hp⟩ i ?_
  show (urom s.pc.toNat).bind (fun u => (decode (.micro u)).toOption) = some i
  cases hu : urom s.pc.toNat with
  | none => rw [hu] at h; cases h
  | some u =>
    rw [hu] at h
    simp only at h
    cases hd : decode (.micro u) with
    | error e => rw [hd] at h; cases h
    | ok j => rw [hd] at h; cases h; simp [hd, Except.toOption]

set_option maxRecDepth 4000 in
/-- The sequencer finds a micro-operation at every address up to 148. -/
theorem fetched_of_le {s : State} (h : s.pc.toNat ≤ 148) : ∃ i, s.fetched = .ok i := by
  have all : ∀ p : Fin 149, ∃ u, urom p.val = some u ∧ (decode (.micro u)).toBool = true := by
    intro p
    have some' : ∀ p : Fin 149, (urom p.val).isSome = true ∧
        ((urom p.val).elim false fun u => (decode (.micro u)).toBool) = true := by decide
    obtain ⟨h1, h2⟩ := some' p
    obtain ⟨u, hu⟩ := Option.isSome_iff_exists.1 h1
    rw [hu] at h2
    exact ⟨u, hu, h2⟩
  obtain ⟨u, hu, hd⟩ := all ⟨s.pc.toNat, by omega⟩
  unfold State.fetched
  simp only at hu
  rw [hu]
  simp only
  cases hdec : decode (.micro u) with
  | ok i => exact ⟨i, rfl⟩
  | error e => rw [hdec] at hd; cases hd

end Sys2Proof.Laws
end

