-- ==== Sys2Proof/Laws/PerInstr.lean ====
section
/-! SUPPORT. A family of statements, one per instruction: where a well-formed instruction stands in `UROM`. -/
namespace Sys2Proof.Laws.UromPlace
open Sys2Proof.Machine

/-- A well-formed instruction is the host's command, or stands at its `uromAddress` with its encoding (44 R136; 30 R74:
each legal word occurs once). -/
def Statement (i : Instr) : Prop :=
  i.wf = true → i = .start ∨ ∃ p, uromAddress i = some p ∧ p < 149 ∧ (urom p).map Code.micro = some (encode i)

/-- ASM stands at 0 (40 R90). -/
theorem asm : Statement .asm := fun _ => .inr ⟨0, by decide⟩

set_option maxRecDepth 4000 in
/-- EXP i stands at i - 15 (41 R100). -/
theorem exp (i : BitVec 7) : Statement (.exp i) := by
  have all : ∀ i : BitVec 7, (Instr.exp i).wf = true →
      ((uromAddress (.exp i)).elim false fun p =>
        decide (p < 149 ∧ (urom p).map Code.micro = some (encode (.exp i)))) = true := by decide
  intro h
  have hi := all i h
  cases hp : uromAddress (.exp i) with
  | none => rw [hp] at hi; cases hi
  | some p => rw [hp] at hi; exact .inr ⟨p, rfl, of_decide_eq_true hi⟩

/-- INIT stands at 65 (42 R110). -/
theorem init : Statement .init := fun _ => .inr ⟨65, by decide⟩

set_option maxRecDepth 4000 in
/-- RND r stands at 66 + r (42 R111). -/
theorem rnd (r : BitVec 7) : Statement (.rnd r) := by
  have all : ∀ r : BitVec 7, (Instr.rnd r).wf = true →
      ((uromAddress (.rnd r)).elim false fun p =>
        decide (p < 149 ∧ (urom p).map Code.micro = some (encode (.rnd r)))) = true := by decide
  intro h
  have hr := all r h
  cases hp : uromAddress (.rnd r) with
  | none => rw [hp] at hr; cases hr
  | some p => rw [hp] at hr; exact .inr ⟨p, rfl, of_decide_eq_true hr⟩

/-- FIN stands at 146 (43 R125). -/
theorem fin : Statement .fin := fun _ => .inr ⟨146, by decide⟩

/-- SER stands at 147 (43 R126). -/
theorem ser : Statement .ser := fun _ => .inr ⟨147, by decide⟩

/-- HALT stands at 148 (44 R137). -/
theorem halt : Statement .halt := fun _ => .inr ⟨148, by decide⟩

/-- START is the host's command, not a word of `UROM` (30 R75). -/
theorem start : Statement .start := fun _ => .inl rfl

end Sys2Proof.Laws.UromPlace
end

