-- ==== Sys2Proof/Laws/Words.lean ====
section
/-! SUPPORT. The word operations of the model are the spec's formulas written over the library's operations. -/
namespace Sys2Proof.Laws
open Sys2Proof.Machine Sys2Proof.Safety

theorem rotr_eq_rotateRight (x : Word) {n : Nat} (h : n < 64) : rotr x n = x.rotateRight n := by
  simp [rotr, BitVec.rotateRight, BitVec.rotateRightAux, Nat.mod_eq_of_lt h]

theorem smallSigma0_eq (x : Word) : smallSigma0 x = sigma0 x := by
  simp only [smallSigma0, sigma0, rotr_eq_rotateRight x (show 1 < 64 by decide),
    rotr_eq_rotateRight x (show 8 < 64 by decide)]
  rfl

theorem smallSigma1_eq (x : Word) : smallSigma1 x = sigma1 x := by
  simp only [smallSigma1, sigma1, rotr_eq_rotateRight x (show 19 < 64 by decide),
    rotr_eq_rotateRight x (show 61 < 64 by decide)]
  rfl

theorem bigSigma0_eq (x : Word) : bigSigma0 x = upperSigma0 x := by
  simp only [bigSigma0, upperSigma0, rotr_eq_rotateRight x (show 28 < 64 by decide),
    rotr_eq_rotateRight x (show 34 < 64 by decide), rotr_eq_rotateRight x (show 39 < 64 by decide)]

theorem bigSigma1_eq (x : Word) : bigSigma1 x = upperSigma1 x := by
  simp only [bigSigma1, upperSigma1, rotr_eq_rotateRight x (show 14 < 64 by decide),
    rotr_eq_rotateRight x (show 18 < 64 by decide), rotr_eq_rotateRight x (show 41 < 64 by decide)]

theorem choose_eq (x y z : Word) : choose x y z = ch x y z := rfl

theorem majority_eq (x y z : Word) : majority x y z = maj x y z := rfl

/-- `byteOf` is the byte by shifting (00_scope R7). -/
theorem byteOf_eq (k : Nat) (v : Word) : byteOf k v = wordByte v k := by
  apply BitVec.eq_of_toNat_eq
  simp [byteOf, wordByte, BitVec.extractLsb']

/-- `be64` is the concatenation of its bytes (00_scope R9). -/
theorem be64_eq (b : Nat → Byte) :
    be64 (b 0) (b 1) (b 2) (b 3) (b 4) (b 5) (b 6) (b 7) = bigEndian b := by
  apply BitVec.eq_of_toNat_eq
  simp only [be64, bigEndian, BitVec.toNat_append, BitVec.toNat_ofNat]
  have h0 := (b 0).isLt
  have h1 := (b 1).isLt
  have h2 := (b 2).isLt
  have h3 := (b 3).isLt
  have h4 := (b 4).isLt
  have h5 := (b 5).isLt
  have h6 := (b 6).isLt
  have h7 := (b 7).isLt
  have app : ∀ x y : Nat, y < 2 ^ 8 → x <<< 8 ||| y = x * 256 + y := by
    intro x y hy
    rw [← Nat.shiftLeft_add_eq_or_of_lt hy, Nat.shiftLeft_eq]
  rw [app _ _ h1, app _ _ h2, app _ _ h3, app _ _ h4, app _ _ h5, app _ _ h6, app _ _ h7]
  omega

end Sys2Proof.Laws
end

