-- ==== Sys2Proof/Tests/Slice0.lean ====
section
/-! SUPPORT. The model's own tests. Expected results are from spec/95 (its section is named at each test) or worked out
by hand from a rule. The second part shows, for every obligation with hypotheses, states and operands that meet them. -/
namespace Sys2Proof.Tests
open Sys2Proof.Machine Sys2Proof.Safety Sys2Proof.Laws

/-! Small states -/

/-- Input R of 95 section 4: M[k] = k. -/
def ramp : Memory := (List.range 96).map fun k => (k, BitVec.ofNat 8 k)

/-- Just after START with input R, unwritten reads faulting. -/
def started : State := { State.reset with m := ramp, unwrittenReads := .fault, busy := true }

/-- A running call with every register written: `x` = IV, `W` and `HV` zero but where a test sets them. -/
def filled : State :=
  { started with
    w := Vector.replicate 80 ⟨0#64, true⟩
    x := written8 iv
    hv := written8 fun _ => 0#64
    pc := 66#8 }

/-- A finished call: `OUT[k]` = k + 1. -/
def finished : State :=
  { filled with out := (List.range 64).map (fun k => (k, BitVec.ofNat 8 (k + 1))), busy := false, done := true, pc := 148#8 }

/-- Idle, with the given events to come. -/
def idle (es : List Event) : State := { State.reset with agenda := es }

/-- One field of the next state an instruction gives. -/
def got {α : Type} (i : Instr) (s : State) (f : State → α) : Option α := (nextOf (exec i s)).map f

/-- One field of the next state a step gives. -/
def stepped {α : Type} (s : State) (f : State → α) : Option α := (nextOf (step s)).map f

/-! Well-formedness: each check refuses an ill-formed term -/

theorem test_wf_exp_below : (Instr.exp 15#7).wf = false := by decide
theorem test_wf_exp_above : (Instr.exp 80#7).wf = false := by decide
theorem test_wf_rnd_above : (Instr.rnd 80#7).wf = false := by decide
theorem test_wf_bounds : (Instr.exp 16#7).wf = true ∧ (Instr.exp 79#7).wf = true ∧ (Instr.rnd 0#7).wf = true ∧
    (Instr.rnd 79#7).wf = true := by decide

/-! Decoding: words written out bit by bit (95 section 10) -/

theorem test_decode_asm : decode (.micro 0b0000000000#10) = .ok .asm := by decide
theorem test_decode_exp16 : decode (.micro 0b0010010000#10) = .ok (.exp 16#7) := by decide
theorem test_decode_exp63 : decode (.micro 0b0010111111#10) = .ok (.exp 63#7) := by decide
theorem test_decode_exp79 : decode (.micro 0b0011001111#10) = .ok (.exp 79#7) := by decide
theorem test_decode_init : decode (.micro 0b0100000000#10) = .ok .init := by decide
theorem test_decode_rnd0 : decode (.micro 0b0110000000#10) = .ok (.rnd 0#7) := by decide
theorem test_decode_rnd16 : decode (.micro 0b0110010000#10) = .ok (.rnd 16#7) := by decide
theorem test_decode_rnd79 : decode (.micro 0b0111001111#10) = .ok (.rnd 79#7) := by decide
theorem test_decode_fin : decode (.micro 0b1000000000#10) = .ok .fin := by decide
theorem test_decode_ser : decode (.micro 0b1010000000#10) = .ok .ser := by decide
theorem test_decode_halt : decode (.micro 0b1100000000#10) = .ok .halt := by decide
theorem test_decode_start : decode (.ctrl 0b1#1) = .ok .start := by decide
theorem test_decode_no_command : decode (.ctrl 0b0#1) = .error .noCommand := by decide

/-- The illegal words of 95 section 10. -/
theorem test_decode_illegal : ∀ u ∈ [0x001#10, 0x07F#10, 0x080#10, 0x08F#10, 0x0D0#10, 0x0FF#10, 0x101#10, 0x1D0#10,
    0x1FF#10, 0x201#10, 0x281#10, 0x301#10, 0x380#10, 0x3FF#10], decode (.micro u) = .error (.illegalMicroOp u) := by
  decide

theorem test_encode_exp63 : encode (.exp 63#7) = .micro 0x0BF#10 := by decide
theorem test_encode_rnd15 : encode (.rnd 15#7) = .micro 0x18F#10 := by decide

/-- Words of the opcode table as its rows number them; EXP with `idx` 0 is no instruction (30 R74). -/
theorem test_table_words : decodeTableWord 16 0x1CF = some (.rnd 79#7) ∧ decodeTableWord 16 0x080 = none ∧
    decodeTableWord 16 0x400 = none ∧ decodeTableWord 8 1 = some .start ∧ decodeTableWord 8 0 = none := by decide

/-- Places in UROM (44 R136). -/
theorem test_urom : urom 0 = some 0x000#10 ∧ urom 64 = some 0x0CF#10 ∧ urom 80 = some 0x18E#10 ∧
    urom 145 = some 0x1CF#10 ∧ urom 149 = none := by decide

/-- The listing syntax of 30 R76. -/
theorem test_listing : listingLine 66 (.rnd 0#7) = "66: RND 0" := by decide

/-! The word operations (95 section 3) -/

theorem test_rotr : rotr 0x0123456789abcdef#64 61 = 0x091a2b3c4d5e6f78#64 := by decide
theorem test_sigma0 : smallSigma0 0x0123456789abcdef#64 = 0x6f92c77c6c4f1aa1#64 := by decide
theorem test_sigma1 : smallSigma1 0x0123456789abcdef#64 = 0x70a3460dbbd4317a#64 := by decide
theorem test_Sigma0 : bigSigma0 0x0123456789abcdef#64 = 0xb7c57a100c7ec1ab#64 := by decide
theorem test_Sigma1 : bigSigma1 0x0123456789abcdef#64 = 0x7703112333475567#64 := by decide
theorem test_Ch : choose 0x510e527fade682d1#64 0x9b05688c2b3e6c1f#64 0x1f83d9abfb41bd6b#64 = 0x1f85c98c7b273d3b#64 := by
  decide
theorem test_Maj : majority 0x6a09e667f3bcc908#64 0xbb67ae8584caa73b#64 0x3c6ef372fe94f82b#64 = 0x3a6fe667f69ce92b#64 :=
  by decide
theorem test_be64 : be64 0x01#8 0x23#8 0x45#8 0x67#8 0x89#8 0xab#8 0xcd#8 0xef#8 = 0x0123456789abcdef#64 := by decide
theorem test_byteOf : byteOf 0 0x0123456789abcdef#64 = 0x01#8 ∧ byteOf 7 0x0123456789abcdef#64 = 0xef#8 := by decide

/-! The instructions -/

set_option maxRecDepth 4000 in
/-- 95 section 4, input R. -/
theorem test_asm_words : got .asm started (fun t => (t.wVal 0, t.wVal 11)) =
    some (0x0001020304050607#64, 0x58595a5b5c5d5e5f#64) := by decide

set_option maxRecDepth 4000 in
/-- 40 R91, and the words ASM leaves unwritten. -/
theorem test_asm_padding : got .asm started (fun t => (t.wVal 12, t.wVal 14, t.wVal 15, t.isWritten (.w 16))) =
    some (0x8000000000000000#64, 0#64, 0x300#64, false) := by decide

/-- 95 section 5: EXP 16 on input R. -/
theorem test_exp16 :
    got (.exp 16#7) ((filled.writeW 0 0x0001020304050607#64).writeW 1 0x08090a0b0c0d0e0f#64 |>.writeW 9
      0x48494a4b4c4d4e4f#64) (fun t => t.wVal 16) = some 0xd366ea69eb64e46b#64 := by decide

/-- 95 section 5: EXP 79 on input R, the last taps. -/
theorem test_exp79 :
    got (.exp 79#7) (((filled.writeW 63 0x48af2dbb2a271409#64).writeW 64 0xef2a7c0403dbf696#64).writeW 72
      0x8ea94963792ad12a#64 |>.writeW 77 0x7f7cbf9b985d98cb#64) (fun t => t.wVal 79) = some 0x00fe1971ecba3fb6#64 := by
  decide

/-- 42 R110. -/
theorem test_init : got .init started (fun t => (t.xVal 0, t.xVal 7, t.pc)) =
    some (0x6a09e667f3bcc908#64, 0x5be0cd19137e2179#64, 1#8) := by decide

/-- 95 section 12, P3: RND 0 on input R. -/
theorem test_rnd0 : got (.rnd 0#7) (filled.writeW 0 0x0001020304050607#64) (fun t => (t.xVal 0, t.xVal 1, t.xVal 4)) =
    some (0x954e6d3bc101e3fc#64, 0x6a09e667f3bcc908#64, 0xf769a0b77eba2598#64) := by decide

/-- The rows RND 15 and RND 16 of 95 section 6.2. -/
theorem test_rnd16 :
    got (.rnd 16#7) ((filled.writeW 16 0xd366ea69eb64e46b#64).writeX
      ([0x6bb98af8cbe15efb#64, 0x8491e58ef1c2fa02#64, 0xe0b8d4707c581535#64, 0xfd4a201a5743e00b#64,
        0x45eda6d1fdeda41b#64, 0x0aa2871e8117004d#64, 0x70a510d48e28c62c#64, 0x076071c0fd8808d5#64].getD · 0#64))
      (fun t => (t.xVal 0, t.xVal 3, t.xVal 4, t.xVal 7)) =
    some (0xdfcccbcf9b9714b7#64, 0xe0b8d4707c581535#64, 0x7ee2ac3b6178d868#64, 0x70a510d48e28c62c#64) := by decide

/-- 43 R125: FIN after INIT; the second word wraps. -/
theorem test_fin : got .fin filled (fun t => (t.hvVal 0, t.hvVal 1, t.xVal 0)) =
    some (0xd413cccfe7799210#64, 0x76cf5d0b09954e76#64, 0x6a09e667f3bcc908#64) := by decide

/-- 43 R126. -/
theorem test_ser : got .ser (filled.writeHv fun i => if i = 0 then 0xe866b15da9e5b18d#64 else 0x6bb175be18cdaffe#64)
    (fun t => (t.out.read? 0, t.out.read? 7, t.out.read? 56, t.out.read? 63)) =
    some (some 0xe8#8, some 0x8d#8, some 0x6b#8, some 0xfe#8) := by decide

/-- 44 R137: (148, 1, 0) steps to (148, 0, 1). -/
theorem test_halt : got .halt { filled with pc := 148#8 } (fun t => (t.pc, t.busy, t.done)) = some (148#8, false, true) := by
  decide

/-- 44 R138: (148, 0, 1) and START gives (0, 1, 0), the old result gone. -/
theorem test_start : got .start finished (fun t => (t.pc, t.busy, t.done)) = some (0#8, true, false) := by decide

/-- 44 R138, 10_state R34: nothing of the old call is left, whichever treatment of unwritten reads applies; `M` stays. -/
theorem test_start_marks : got .start finished (fun t => (t.out.read? 0, t.isWritten (.x 3), t.xVal 3, t.m.read? 5)) =
    some (none, false, 0#64, some 5#8) := by decide

/-- 95 section 11, row 8: START while busy. -/
theorem test_start_busy : got .start filled (fun t => (t.pc, t.busy, t.isWritten (.w 79))) = some (66#8, true, true) := by
  decide

/-! Model-only faults -/

set_option maxRecDepth 4000 in
/-- 95 section 5, negative vectors: after START and ASM, EXP 18 and EXP 32 fault on W[16]; EXP 17 runs. -/
theorem test_unwritten_exp18 : faultOf (exec (.exp 18#7) started.assembleBlock) = some (.unwrittenRead (.w 16)) := by decide
set_option maxRecDepth 4000 in
theorem test_unwritten_exp32 : faultOf (exec (.exp 32#7) started.assembleBlock) = some (.unwrittenRead (.w 16)) := by decide
set_option maxRecDepth 4000 in
theorem test_written_exp17 : got (.exp 17#7) started.assembleBlock (fun t => t.wVal 17) = some 0xf7f3169e1f9930a3#64 := by
  decide

set_option maxRecDepth 4000 in
/-- 60 R153: ASM names the byte of `M` the host has not written. -/
theorem test_unwritten_asm :
    faultOf (exec .asm { started with m := ramp.filter fun c => decide (c.1 ≠ 41) }) = some (.unwrittenRead (.m 41)) := by
  decide

/-- 70 R172: from reset, with `M` unwritten, ASM faults under the other treatment too. -/
theorem test_held_asm : faultOf (exec .asm State.reset) = some (.unwrittenRead (.m 0)) := by decide

/-- The model's choice (logs 1 and 2): from reset, the other instructions run on what the registers hold. -/
theorem test_held_rnd : got (.rnd 0#7) State.reset (fun t => t.xVal 4) = some 0x428a2f98d728ae22#64 := by decide

/-! The host (95 section 11) -/

theorem test_row1 : stepped (idle [.host .readStatus]) (fun t => t.replies) = some [.status 0b00#2] := by decide
theorem test_row2 : stepped (idle [.host (.readOut 0)]) (fun t => t.replies) = some [.refused (.out 0)] := by decide
theorem test_row3 : stepped (idle [.host (.readM 5)]) (fun t => t.replies) = some [.refused (.m 5)] := by decide
theorem test_row4 : stepped (idle [.host (.writeM 5 0xAB#8)]) (fun t => t.m) = some [(5, 0xAB#8)] := by decide
theorem test_row6 : stepped started (fun t => (t.pc, t.busy, t.done)) = some (1#8, true, false) := by decide
theorem test_row7 : stepped { filled with agenda := [.host (.writeM 0 0x55#8)] } (fun t => t.m.read? 0) = some (some 0#8) := by
  decide
theorem test_row9 : stepped { filled with agenda := [.host (.readOut 0)] } (fun t => t.replies) =
    some [.refused (.out 0)] := by decide
theorem test_row10 : stepped { filled with agenda := [.host .readStatus] } (fun t => t.replies) =
    some [.status 0b01#2] := by decide
theorem test_row13 : stepped finished (fun t => (t.pc, t.busy, t.done)) = some (148#8, false, true) := by decide
theorem test_row14 : stepped { finished with agenda := [.host .readStatus] } (fun t => t.replies) =
    some [.status 0b10#2] := by decide
theorem test_row15 : stepped { finished with agenda := [.host (.readOut 63)] } (fun t => t.replies) =
    some [.byte 64#8] := by decide
theorem test_row16 : stepped { finished with agenda := [.host (.writeM 0 0x55#8)] } (fun t => (t.m.read? 0, t.done)) =
    some (some 0x55#8, true) := by decide
theorem test_row17 : stepped { finished with agenda := [.host (.writeCtrl 0#1)] } (fun t => (t.pc, t.busy, t.done)) =
    some (148#8, false, true) := by decide
theorem test_row18 : stepped { finished with agenda := [.host (.writeCtrl 1#1)] } (fun t => (t.pc, t.busy, t.done)) =
    some (0#8, true, false) := by decide
theorem test_row19 : stepped { filled with pc := 7#8, agenda := [.reset] }
    (fun t => (t.pc, t.busy, t.m, t.isWritten (.w 0))) = some (0#8, false, [], false) := by decide

/-- 44 R143: a read of CTRL returns 0. -/
theorem test_read_ctrl : stepped (idle [.host .readCtrl]) (fun t => t.replies) = some [.ctrl 0#1] := by decide

/-- 60 R150: three lengths that sum to 96 are still invalid. -/
theorem test_hash_dyn_sum : hashDyn (List.replicate 96 0#8) [] [] State.reset = .error .invalidLength := by decide
theorem test_hash_dyn_31 : hashDyn (List.replicate 31 0#8) (List.replicate 33 0#8) (List.replicate 32 0#8) State.reset =
    .error .invalidLength := by decide

/-- 60 R152: the codes. -/
theorem test_codes : hashDynCode (hashDyn [] [] [] State.reset) = 1 ∧ outcomeCode (exec .init State.reset) = some 0 ∧
    outcomeCode (exec .asm State.reset) = some 2 ∧ outcomeCode (exec (.exp 0#7) State.reset) = some 3 ∧
    replyCode (State.reset.hostReadM 5) = 2 := by decide

/-! Placing an instruction, and running it as the first after reset (log 9) -/

theorem test_place_init : stepped (State.reset.withFetchWord 16 0x100) (fun t => (t.xVal 0, t.pc)) =
    some (0x6a09e667f3bcc908#64, 66#8) := by decide
theorem test_place_rnd : stepped (State.reset.withFetchWord 16 0x1CF) (fun t => (t.pc, t.isWritten (.x 0))) =
    some (146#8, true) := by decide
theorem test_place_start : stepped (State.reset.withFetchWord 8 1) (fun t => (t.pc, t.busy)) = some (0#8, true) := by decide

/-! Witnesses: for each obligation with hypotheses, states and operands that meet them all -/

theorem readsWritten_of_all {i : Instr} {s : State} (h : (readsList i).all s.isWritten = true) : ReadsWritten i s :=
  fun e he => List.all_eq_true.1 h e ((mem_readsList i e).2 he)

theorem exec_of_all {i : Instr} {s : State} (hi : i.wf = true) (h : (readsList i).all s.isWritten = true) :
    ∃ t, exec i s = .next t := ⟨_, (exec_next_iff i s _).2 ⟨hi, .inr (readsWritten_of_all h), rfl⟩⟩

/-- The operands at both ends of their ranges. -/
theorem test_witness_DecodeOfEncodeIsIdentity : (Instr.exp 16#7).wf = true ∧ (Instr.exp 79#7).wf = true ∧
    (Instr.rnd 0#7).wf = true ∧ (Instr.rnd 79#7).wf = true ∧ Instr.start.wf = true := by decide

theorem test_witness_EncodeOfDecodeIsIdentity : decode (.micro 0x0CF#10) = .ok (.exp 79#7) ∧
    decode (.ctrl 1#1) = .ok .start := by decide

theorem test_witness_MicroprogramLayout : expIndexOk 16#7 ∧ expIndexOk 79#7 ∧ rndIndexOk 0#7 ∧ rndIndexOk 79#7 ∧
    149 ≤ 149 := by decide

/-- Both clauses of the sequencer's turn, and the host's command. -/
theorem test_witness_StepRunsTheDecodedInstruction :
    (started.busy = true ∧ urom started.pc.toNat = some 0#10 ∧ decode (.micro 0#10) = .ok .asm ∧ started.agenda = []) ∧
    ({ started with agenda := [.sequencer, .reset] } : State).agenda = .sequencer :: [.reset] ∧
    decode (.ctrl 1#1) = .ok .start ∧ (idle [.host (.writeCtrl 1#1)]).agenda = .host (.writeCtrl 1#1) :: [] := by decide

theorem test_witness_PlacedInstructionRunsNext : decodeTableWord 16 0x0CF = some (.exp 79#7) ∧
    decodeTableWord 16 0 = some .asm := by decide

theorem test_witness_IdleSequencerChangesNothing : State.reset.busy = false ∧ State.reset.agenda = [] ∧
    (idle [.sequencer]).busy = false ∧ (idle [.sequencer]).agenda = .sequencer :: [] := by decide

set_option maxRecDepth 4000 in
theorem test_witness_AsmAssemblesTheBlock : ∀ k < 96, started.m.read? k = some (BitVec.ofNat 8 k) := by decide

theorem test_witness_ExpExpandsTheSchedule : ReadsWritten (.exp 16#7) filled ∧ ReadsWritten (.exp 79#7) filled :=
  ⟨readsWritten_of_all (by decide), readsWritten_of_all (by decide)⟩

theorem test_witness_RndPerformsOneRound : ReadsWritten (.rnd 0#7) filled ∧ ReadsWritten (.rnd 79#7) filled :=
  ⟨readsWritten_of_all (by decide), readsWritten_of_all (by decide)⟩

theorem test_witness_FinAddsTheInitialHashValue : ReadsWritten .fin filled := readsWritten_of_all (by decide)

theorem test_witness_SerSerializesBigEndian : ReadsWritten .ser filled := readsWritten_of_all (by decide)

/-- Both branches. -/
theorem test_witness_StartBeginsACallOrIsIgnored : filled.busy = true ∧ ¬finished.busy = true := by decide

set_option maxRecDepth 4000 in
/-- With `M` written and without. -/
theorem test_witness_HeldTreatmentAlwaysRuns :
    (({ started with unwrittenReads := .held } : State).unwrittenReads = .held ∧
      MLoaded { started with unwrittenReads := .held }) ∧
    State.reset.unwrittenReads = .held ∧ ¬MLoaded State.reset :=
  ⟨⟨rfl, by decide⟩, rfl, by decide⟩

/-- One unwritten read for each micro-operation that reads. -/
theorem test_witness_UnwrittenReadFaultsByName :
    ∀ i ∈ [Instr.asm, .exp 16#7, .exp 79#7, .rnd 0#7, .rnd 79#7, .fin, .ser],
      i.wf = true ∧ ({ State.reset with unwrittenReads := .fault } : State).unwrittenReads = .fault ∧
        ¬ReadsWritten i { State.reset with unwrittenReads := .fault } := by
  have key : ∀ i ∈ [Instr.asm, .exp 16#7, .exp 79#7, .rnd 0#7, .rnd 79#7, .fin, .ser],
      i.wf = true ∧ ∃ e ∈ readsList i, ({ State.reset with unwrittenReads := .fault } : State).isWritten e = false := by
    decide
  intro i hi
  obtain ⟨hw, e, he, hu⟩ := key i hi
  exact ⟨hw, rfl, fun h => by rw [h e ((mem_readsList i e).1 he)] at hu; cases hu⟩

/-- ASM under the other treatment. -/
theorem test_witness_UnwrittenReadFaultsByName_held : State.reset.unwrittenReads = .held ∧ ¬ReadsWritten .asm State.reset :=
  ⟨rfl, fun h => by cases h (.m 0) ⟨0, by decide, rfl⟩⟩

theorem test_witness_IllegalOperandFaults : (Instr.exp 15#7).wf = false ∧ (Instr.exp 80#7).wf = false ∧
    (Instr.rnd 80#7).wf = false := by decide

set_option maxRecDepth 4000 in
theorem test_witness_FrameOfAsmAndExp : (∃ t, exec .asm started = .next t) ∧ (∃ t, exec (.exp 16#7) filled = .next t) ∧
    ∃ t, exec (.exp 79#7) filled = .next t :=
  ⟨exec_of_all rfl (by decide), exec_of_all rfl (by decide), exec_of_all rfl (by decide)⟩

theorem test_witness_FrameOfInitRndAndFin : (∃ t, exec .init filled = .next t) ∧
    (∃ t, exec (.rnd 79#7) filled = .next t) ∧ ∃ t, exec .fin filled = .next t :=
  ⟨exec_of_all rfl rfl, exec_of_all rfl (by decide), exec_of_all rfl (by decide)⟩

theorem test_witness_FrameOfSer : ∃ t, exec .ser filled = .next t := exec_of_all rfl (by decide)

theorem test_witness_FrameOfHaltAndStart : (∃ t, exec .halt filled = .next t) ∧ (∃ t, exec .start filled = .next t) ∧
    ∃ t, exec .start finished = .next t := ⟨exec_of_all rfl rfl, exec_of_all rfl rfl, exec_of_all rfl rfl⟩

theorem test_witness_HostReadStatusGivesDoneBusy : (idle [.host .readStatus]).agenda = .host .readStatus :: [] := rfl

/-- While idle and while busy, at the ends of the range. -/
theorem test_witness_HostWriteMStoresOrIsDropped :
    (idle [.host (.writeM 0 1#8)]).agenda = .host (.writeM 0 1#8) :: [] ∧ ¬(idle [.host (.writeM 0 1#8)]).busy = true ∧
    ({ filled with agenda := [.host (.writeM 95 1#8)] } : State).agenda = .host (.writeM 95 1#8) :: [] ∧
    filled.busy = true := by decide

/-- A written byte and an unwritten one. -/
theorem test_witness_HostReadMGivesTheByte :
    (({ started with agenda := [.host (.readM 95)] } : State).agenda = .host (.readM 95) :: [] ∧
      ({ started with agenda := [.host (.readM 95)] } : State).m.read? 95 = some 95#8) ∧
    (idle [.host (.readM 0)]).agenda = .host (.readM 0) :: [] ∧ (idle [.host (.readM 0)]).m.read? 0 = none := by decide

set_option maxRecDepth 8000 in
/-- The invariant in a state before ASM, in the middle of a call, before HALT, and after it. -/
theorem sequencerInv_examples : SequencerInv started ∧ SequencerInv filled ∧
    SequencerInv { filled with out := finished.out, pc := 148#8 } ∧ SequencerInv finished := by
  unfold SequencerInv CallProgress
  refine ⟨by decide, by decide, by decide, by decide⟩

/-- A result (in a state of the invariant), no result, and a `DONE` state whose byte is unwritten. -/
theorem test_witness_HostReadOutNeedsDone :
    (∃ s : State, s.agenda = .host (.readOut 63) :: [] ∧ s.done = true ∧ s.out.read? 63 = some 64#8 ∧ SequencerInv s) ∧
    (∃ s : State, s.agenda = .host (.readOut 0) :: [] ∧ s.done = false) ∧
    ∃ s : State, s.agenda = .host (.readOut 0) :: [] ∧ s.done = true ∧ s.out.read? 0 = none :=
  ⟨⟨{ finished with agenda := [.host (.readOut 63)] }, rfl, rfl, by decide, sequencerInv_examples.2.2.2⟩,
    ⟨idle [.host (.readOut 0)], rfl, rfl⟩,
    ⟨{ State.reset with done := true, agenda := [.host (.readOut 0)] }, rfl, rfl, rfl⟩⟩

theorem test_witness_OtherHostAccessesHaveNoEffect : ∀ op ∈ [HostOp.writeCtrl 0#1, .writeStatus 3#2, .writeOut 63 1#8,
    .readCtrl], (idle [.host op]).agenda = .host op :: [] := by decide

theorem test_witness_ResetEventAbandonsTheCall : ({ filled with agenda := [.reset] } : State).agenda = .reset :: [] := rfl

set_option maxRecDepth 4000 in
theorem test_witness_StepKeepsSequencerInv : (SequencerInv started ∧ ∃ t, step started = .next t) ∧
    (SequencerInv filled ∧ ∃ t, step filled = .next t) ∧ SequencerInv finished ∧ ∃ t, step finished = .next t :=
  ⟨⟨sequencerInv_examples.1, (exec_of_all rfl (by decide) : ∃ t, exec .asm started = .next t)⟩,
    ⟨sequencerInv_examples.2.1, (exec_of_all rfl (by decide) : ∃ t, exec (.rnd 0#7) filled = .next t)⟩,
    sequencerInv_examples.2.2.2, finished, rfl⟩

set_option maxRecDepth 4000 in
theorem test_witness_WrittenBeforeRead : SequencerInv started ∧ (started.busy = true → started.pc = 0#8 → MLoaded started) :=
  ⟨sequencerInv_examples.1, fun _ _ => by decide⟩

set_option maxRecDepth 4000 in
theorem test_witness_StepKeepsMemoriesCanonical :
    ∃ s t : State, s.m = ramp ∧ MemoriesCanonical s ∧ step s = .next t :=
  ⟨{ State.reset with m := ramp }, { State.reset with m := ramp }, rfl,
    ⟨by decide, by decide, fun i => by
      simp only [State.wElem, State.xElem, State.hvElem, State.reset, Block.reset, getD_replicate_unset]
      exact ⟨fun _ => rfl, fun _ => rfl, fun _ => rfl⟩⟩, rfl⟩

/-- The five ways a status bit changes. -/
theorem test_witness_StatusChangesOnlyByStartHaltReset :
    (∃ t, step { filled with pc := 148#8 } = .next t ∧ filled.done = false ∧ t.done = true ∧ t.busy = false) ∧
    (∃ t, step { finished with agenda := [.host (.writeCtrl 1#1)] } = .next t ∧ finished.done = true ∧
      t.done = false) ∧
    (∃ t, step { finished with agenda := [.reset] } = .next t ∧ finished.done = true ∧ t.done = false) ∧
    (∃ t, step (idle [.host (.writeCtrl 1#1)]) = .next t ∧ (idle [.host (.writeCtrl 1#1)]).busy = false ∧ t.busy = true) ∧
    ∃ t, step { filled with agenda := [.reset] } = .next t ∧ filled.busy = true ∧ t.busy = false :=
  ⟨⟨_, rfl, rfl, rfl, rfl⟩, ⟨_, rfl, rfl, rfl⟩, ⟨_, rfl, rfl, rfl⟩, ⟨_, rfl, rfl, rfl⟩, ⟨_, rfl, rfl, rfl⟩⟩

set_option maxRecDepth 4000 in
/-- One state for each clause: nothing performed, an ordinary micro-operation, HALT, START while idle and while busy. -/
theorem test_witness_ControlTransferInFull :
    (nextEvent finished ≠ .reset ∧ performed finished = none ∧ ∃ t, step finished = .next t) ∧
    (nextEvent started ≠ .reset ∧ performed started = some .asm ∧ ∃ t, step started = .next t) ∧
    (performed { filled with pc := 148#8 } = some .halt ∧ ∃ t, step { filled with pc := 148#8 } = .next t) ∧
    (performed (idle [.host (.writeCtrl 1#1)]) = some .start ∧ ∃ t, step (idle [.host (.writeCtrl 1#1)]) = .next t) ∧
    performed { filled with agenda := [.host (.writeCtrl 1#1)] } = some .start ∧
    ∃ t, step { filled with agenda := [.host (.writeCtrl 1#1)] } = .next t :=
  ⟨⟨by decide, by decide, finished, rfl⟩,
    ⟨by decide, by decide, (exec_of_all rfl (by decide) : ∃ t, exec .asm started = .next t)⟩,
    ⟨by decide, _, rfl⟩, ⟨by decide, _, rfl⟩, by decide, _, rfl⟩

/-- A host write while idle, and a reset, each changing a byte. -/
theorem test_witness_MessageSpaceChangesOnlyByTheIdleHost :
    (∃ t, step (idle [.host (.writeM 95 1#8)]) = .next t ∧
      t.m.read? 95 ≠ (idle [.host (.writeM 95 1#8)]).m.read? 95) ∧
    ∃ t, step { started with agenda := [.reset] } = .next t ∧ t.m.read? 0 ≠ started.m.read? 0 :=
  ⟨⟨_, rfl, by decide⟩, ⟨_, rfl, by decide⟩⟩

/-- START, and a host operation that is not START. -/
theorem test_witness_OnlyTheSequencerComputes :
    (nextEvent (idle [.host (.writeCtrl 1#1)]) ≠ .reset ∧ nextEvent (idle [.host (.writeCtrl 1#1)]) ≠ .sequencer ∧
      ∃ t, step (idle [.host (.writeCtrl 1#1)]) = .next t) ∧
    nextEvent (idle [.host .readStatus]) ≠ .reset ∧ nextEvent (idle [.host .readStatus]) ≠ .sequencer ∧
    performed (idle [.host .readStatus]) ≠ some .start ∧ ∃ t, step (idle [.host .readStatus]) = .next t :=
  ⟨⟨by decide, by decide, _, rfl⟩, by decide, by decide, by decide, _, rfl⟩

theorem test_witness_TreatmentOfUnwrittenReadsIsConstant : ∃ t, step finished = .next t := ⟨finished, rfl⟩

/-- A call with nothing but START to come, and one in which the host polls, writes `M` and issues START meanwhile. -/
def quiet : List Event := [.host (.writeCtrl 1#1)]
def noisy : List Event :=
  [.host (.writeCtrl 1#1), .sequencer, .host .readStatus, .host (.writeM 0 1#8), .sequencer, .host (.writeCtrl 1#1)]

set_option maxRecDepth 8000 in
theorem endsACall_quiet (s : State) (h : s.agenda = quiet) : EndsACall 150 s := by
  unfold EndsACall events
  rw [h]
  decide

set_option maxRecDepth 8000 in
theorem endsACall_noisy (s : State) (h : s.agenda = noisy) : EndsACall 153 s := by
  unfold EndsACall events
  rw [h]
  decide

set_option maxRecDepth 4000 in
theorem test_witness_CallTakes149Steps :
    (∃ s : State, s.busy = false ∧ nextEvent s = .host (.writeCtrl 1#1) ∧ EndsACall 150 s ∧ MLoaded s) ∧
    ∃ s : State, s.busy = false ∧ nextEvent s = .host (.writeCtrl 1#1) ∧ EndsACall 153 s ∧ MLoaded s :=
  ⟨⟨{ finished with agenda := quiet }, rfl, rfl, endsACall_quiet _ rfl, by decide⟩,
    ⟨{ finished with agenda := noisy }, rfl, rfl, endsACall_noisy _ rfl, by decide⟩⟩

set_option maxRecDepth 8000 in
/-- Nothing to come, and a poll and an ignored START to come. -/
theorem test_witness_CallComputesTheHashFunction :
    (started.busy = true ∧ started.pc = 0#8 ∧ EndsACall 149 started) ∧
    EndsACall 151 { started with agenda := [.host .readStatus, .host (.writeCtrl 1#1)] } ∧
    ((List.range 96).map (BitVec.ofNat 8)).length = 96 ∧
    ∀ k < 96, started.m.read? k = ((List.range 96).map (BitVec.ofNat 8))[k]? := by
  unfold EndsACall events
  decide

set_option maxRecDepth 4000 in
/-- The same message in a block just reset and left alone, and in one that has finished a call and is disturbed. -/
theorem test_witness_ResultDependsOnlyOnTheMessage :
    ∃ s s' : State, s.done ≠ s'.done ∧ s.busy = false ∧ s'.busy = false ∧ nextEvent s = .host (.writeCtrl 1#1) ∧
      nextEvent s' = .host (.writeCtrl 1#1) ∧ EndsACall 150 s ∧ EndsACall 153 s' ∧ MLoaded s ∧
      ∀ k < 96, s.m.read? k = s'.m.read? k :=
  ⟨{ State.reset with m := ramp, agenda := quiet }, { finished with agenda := noisy }, by decide,
    rfl, rfl, rfl, rfl, endsACall_quiet _ rfl, endsACall_noisy _ rfl, by decide, fun _ _ => rfl⟩

/-- Three inputs of 32 bytes. -/
theorem test_witness_HashProcedureDeliversTheHash :
    ∃ (s : State) (n p d : List Byte), n.length = 32 ∧ p.length = 32 ∧ d.length = 32 ∧ s.busy = false ∧
      s.agenda = hashScript n p d :=
  ⟨idle (hashScript (List.replicate 32 0xFF#8) (List.replicate 32 0#8) (List.replicate 32 0#8)),
    List.replicate 32 0xFF#8, List.replicate 32 0#8, List.replicate 32 0#8, rfl, rfl, rfl, rfl, rfl⟩

theorem test_witness_HashDynChecksTheLengths : (List.replicate 33 0#8).length ≠ 32 ∧ ([] : List Byte).length ≠ 32 ∧
    (List.replicate 32 0#8).length = 32 := by decide

set_option maxRecDepth 4000 in
theorem test_witness_ScheduleIsAFunctionOfTheBlock :
    (∀ j < 16, started.assembleBlock.isWritten (.w j) = true) ∧
    (∀ j < 16, ({ started.assembleBlock with x := written8 iv } : State).isWritten (.w j) = true) ∧
    ∀ j < 16, started.assembleBlock.wVal j = ({ started.assembleBlock with x := written8 iv } : State).wVal j :=
  ⟨by decide, by decide, fun _ _ => rfl⟩

set_option maxRecDepth 8000 in
theorem test_witness_CompressionIsAFunctionOfTheSchedule : (∀ j < 80, filled.isWritten (.w j) = true) ∧
    (∀ j < 80, finished.isWritten (.w j) = true) ∧ ∀ j < 80, filled.wVal j = finished.wVal j :=
  ⟨by decide, by decide, fun _ _ => rfl⟩

set_option maxRecDepth 4000 in
theorem test_witness_MessageIsRecoverableFromTheBlock : MLoaded started ∧ ∃ t, exec .asm started = .next t :=
  ⟨by decide, exec_of_all rfl (by decide)⟩

set_option maxRecDepth 4000 in
theorem test_witness_FirstExpandedWordsFromThePadding :
    ∃ s t u v, exec .asm s = .next t ∧ exec (.exp 16#7) t = .next u ∧ exec (.exp 17#7) u = .next v :=
  ⟨{ started with unwrittenReads := .held }, _, _, _,
    (exec_next_iff _ _ _).2 ⟨rfl, .inr (readsWritten_of_all (by decide)), rfl⟩,
    (exec_next_iff _ _ _).2 ⟨rfl, .inl ⟨rfl, by decide⟩, rfl⟩, (exec_next_iff _ _ _).2 ⟨rfl, .inl ⟨rfl, by decide⟩, rfl⟩⟩

theorem test_witness_FusedRoundZeroIsTheUniformForm :
    ∃ t u, exec .init filled = .next t ∧ exec (.rnd 0#7) t = .next u :=
  ⟨_, _, (exec_next_iff _ _ _).2 ⟨rfl, .inr (readsWritten_of_all rfl), rfl⟩,
    (exec_next_iff _ _ _).2 ⟨rfl, .inr (readsWritten_of_all (by decide)), rfl⟩⟩

theorem test_witness_FinThenSerIsOneStep : ∃ t u, exec .fin filled = .next t ∧ exec .ser t = .next u :=
  ⟨_, _, (exec_next_iff _ _ _).2 ⟨rfl, .inr (readsWritten_of_all (by decide)), rfl⟩,
    (exec_next_iff _ _ _).2 ⟨rfl, .inr (readsWritten_of_all (by decide)), rfl⟩⟩

/-- Neighbours: neither is a tap of the other. -/
theorem test_witness_IndependentExpansionsCommute : expIndexOk 16#7 ∧ expIndexOk 17#7 ∧ 16#7 ≠ 17#7 ∧
    ¬Reads (.exp 16#7) (.w 17) ∧ ¬Reads (.exp 17#7) (.w 16) ∧ Readable (.exp 16#7) filled ∧ Readable (.exp 17#7) filled :=
  ⟨by decide, by decide, by decide, by simp [Reads], by simp [Reads], .inr (readsWritten_of_all (by decide)),
    .inr (readsWritten_of_all (by decide))⟩

theorem test_witness_ExpansionCommutesWithARound : expIndexOk 79#7 ∧ rndIndexOk 0#7 ∧ 79#7 ≠ 0#7 ∧
    Readable (.exp 79#7) filled ∧ Readable (.rnd 0#7) filled :=
  ⟨by decide, by decide, by decide, .inr (readsWritten_of_all (by decide)), .inr (readsWritten_of_all (by decide))⟩

/-- Two idle blocks with different messages. -/
theorem test_witness_ControlAndTimeIgnoreData : ∃ s s' t t' : State, s.m ≠ s'.m ∧ s.pc = s'.pc ∧ s.busy = s'.busy ∧
    s.agenda = s'.agenda ∧ runSteps 1 s = .next t ∧ runSteps 1 s' = .next t' :=
  ⟨{ State.reset with m := [(0, 1#8)], busy := true, pc := 65#8 }, { State.reset with busy := true, pc := 65#8 }, _, _,
    by decide, rfl, rfl, rfl, rfl, rfl⟩

theorem test_witness_words : (0 < 61 ∧ 61 < 64 ∧ 63 < 64) ∧ 7 < 8 ∧ 79 < 80 := by decide

end Sys2Proof.Tests
end

section
/-! SUPPORT. More fields and files after an update of the state. -/
namespace Sys2Proof.Machine

/-! `assembleBlock` -/

@[simp] theorem State.assembleBlock_m (s : State) : s.assembleBlock.m = s.m := by simp only [State.assembleBlock]
@[simp] theorem State.assembleBlock_out (s : State) : s.assembleBlock.out = s.out := by simp only [State.assembleBlock]
@[simp] theorem State.assembleBlock_pc (s : State) : s.assembleBlock.pc = s.pc := by simp only [State.assembleBlock]
@[simp] theorem State.assembleBlock_busy (s : State) : s.assembleBlock.busy = s.busy := by
  simp only [State.assembleBlock]
@[simp] theorem State.assembleBlock_done (s : State) : s.assembleBlock.done = s.done := by
  simp only [State.assembleBlock]
@[simp] theorem State.assembleBlock_agenda (s : State) : s.assembleBlock.agenda = s.agenda := by
  simp only [State.assembleBlock]
@[simp] theorem State.xElem_assembleBlock (s : State) (i : Nat) : s.assembleBlock.xElem i = s.xElem i := by
  simp only [State.xElem, State.assembleBlock]
@[simp] theorem State.hvElem_assembleBlock (s : State) (i : Nat) : s.assembleBlock.hvElem i = s.hvElem i := by
  simp only [State.hvElem, State.assembleBlock]

/-! The register files after `writeOut` -/

@[simp] theorem State.wElem_writeOut (s : State) (f : Nat → Word) (i : Nat) : (s.writeOut f).wElem i = s.wElem i := by
  simp only [State.wElem, State.writeOut_w]
@[simp] theorem State.xElem_writeOut (s : State) (f : Nat → Word) (i : Nat) : (s.writeOut f).xElem i = s.xElem i := by
  simp only [State.xElem, State.writeOut_x]
@[simp] theorem State.hvElem_writeOut (s : State) (f : Nat → Word) (i : Nat) : (s.writeOut f).hvElem i = s.hvElem i := by
  simp only [State.hvElem, State.writeOut_hv]

end Sys2Proof.Machine
end

section
/-! SUPPORT. Steps and runs: what every step does to the agenda, and a run taken apart at its first and at its last
step. -/
namespace Sys2Proof.Laws
open Sys2Proof.Machine Sys2Proof.Safety

/-- No instruction touches the events to come (log 8). -/
@[simp] theorem effectOf_agenda (i : Instr) (s : State) : (effectOf i s).agenda = s.agenda := by
  cases i with
  | start =>
    cases hb : s.busy with
    | true => rw [effectOf_start_busy hb]
    | false => rw [effectOf_start_idle hb]
  | asm | exp n | init | rnd r | fin | ser | halt => simp [effectOf]

/-- No host access touches the events to come (log 8). -/
@[simp] theorem hostAccess_agenda (s : State) (op : HostOp) : (s.hostAccess op).agenda = s.agenda := by
  cases op with
  | writeM k b => simp only [State.hostAccess, State.hostWriteM]; split <;> rfl
  | readStatus | readM k | readOut k | writeCtrl b | readCtrl | writeStatus v | writeOut k b => rfl

/-- A step takes the event it performs off the agenda and leaves the others (log 8). -/
theorem step_agenda {s t : State} (h : step s = .next t) : t.agenda = s.agenda.tail := by
  obtain ⟨i, -, -, hexec, -⟩ | ⟨-, -, rfl⟩ | ⟨-, op, -, rfl⟩ | ⟨-, -, -, rfl⟩ := step_next_cases h
  · obtain ⟨-, -, rfl⟩ := (exec_next_iff _ _ _).1 hexec
    exact effectOf_agenda _ _
  · rfl
  · exact hostAccess_agenda _ _
  · rfl

@[simp] theorem events_zero (s : State) : events 0 s = [] := List.take_zero

/-- The first event is the one the first step performs. -/
theorem events_succ_eq_cons (n : Nat) (s : State) : events (n + 1) s = nextEvent s :: events n (afterEvent s) := by
  unfold events nextEvent afterEvent
  cases s.agenda with
  | nil => simp [List.replicate_succ]
  | cons e rest =>
    have hmin : min (n - rest.length) (n + 1) = min (n - rest.length) n := by omega
    simp [List.take_append, List.take_replicate, hmin]

/-- The events after the first are those of the run from the first step's next state. -/
theorem events_of_step {s u : State} (h : step s = .next u) (n : Nat) : events n (afterEvent s) = events n u := by
  unfold events
  rw [step_agenda h]
  rfl

/-- One step more performs one event more, the last. -/
theorem events_succ_eq_append (n : Nat) (s : State) : ∃ e, events (n + 1) s = events n s ++ [e] := by
  induction n generalizing s with
  | zero => exact ⟨nextEvent s, events_succ_eq_cons 0 s⟩
  | succ n ih =>
    obtain ⟨e, he⟩ := ih (afterEvent s)
    exact ⟨e, by rw [events_succ_eq_cons, he, events_succ_eq_cons, List.cons_append]⟩

theorem runSteps_succ {s u : State} (h : step s = .next u) (n : Nat) : runSteps (n + 1) s = runSteps n u := by
  simp only [runSteps, h]

theorem runSteps_one (s : State) : runSteps 1 s = step s := by
  unfold runSteps
  cases step s <;> rfl

/-- A run of one step more goes on with the step of the state it has reached, and performs its next event last. -/
theorem runSteps_succ_last {n : Nat} {s t : State} (h : runSteps n s = .next t) :
    runSteps (n + 1) s = step t ∧ events (n + 1) s = events n s ++ [nextEvent t] := by
  induction n generalizing s with
  | zero =>
    cases h
    exact ⟨runSteps_one _, events_succ_eq_cons _ _⟩
  | succ n ih =>
    cases hs : step s with
    | next u =>
      rw [runSteps_succ hs] at h
      obtain ⟨hrun, hev⟩ := ih h
      refine ⟨(runSteps_succ hs _).trans hrun, ?_⟩
      rw [events_succ_eq_cons, events_of_step hs, hev, events_succ_eq_cons, events_of_step hs, List.cons_append]
    | fault f => simp [runSteps, hs] at h
    | refused r => simp [runSteps, hs] at h

end Sys2Proof.Laws
end

section
/-! SUPPORT. What the block computes with: two states with the same bytes of `M`, registers, `OUT`, step counter and
status have it in common, whatever stands at the boundary; every instruction keeps it so. -/
namespace Sys2Proof.Laws
open Sys2Proof.Machine Sys2Proof.Safety

/-- The two states agree on all eight items of 10_state R20, element by element, marks included. What is beside the
block (the events to come, the replies, the treatment of unwritten reads) may differ. -/
structure SameData (s s' : State) : Prop where
  m : ∀ k < 96, s.m.read? k = s'.m.read? k
  w : ∀ i, s.wElem i = s'.wElem i
  x : ∀ i, s.xElem i = s'.xElem i
  hv : ∀ i, s.hvElem i = s'.hvElem i
  out : ∀ k, s.out.read? k = s'.out.read? k
  pc : s.pc = s'.pc
  busy : s.busy = s'.busy
  done : s.done = s'.done

namespace SameData

theorem of_toBlock {s s' : State} (h : s.toBlock = s'.toBlock) : SameData s s' := by
  obtain ⟨block, _, _, _⟩ := s
  obtain ⟨block', _, _, _⟩ := s'
  cases h
  exact ⟨fun _ _ => rfl, fun _ => rfl, fun _ => rfl, fun _ => rfl, fun _ => rfl, rfl, rfl, rfl⟩

theorem refl (s : State) : SameData s s := of_toBlock rfl

variable {s s' s'' : State}

theorem symm (h : SameData s s') : SameData s' s :=
  ⟨fun k hk => (h.m k hk).symm, fun i => (h.w i).symm, fun i => (h.x i).symm, fun i => (h.hv i).symm,
    fun k => (h.out k).symm, h.pc.symm, h.busy.symm, h.done.symm⟩

theorem trans (h : SameData s s') (h' : SameData s' s'') : SameData s s'' :=
  ⟨fun k hk => (h.m k hk).trans (h'.m k hk), fun i => (h.w i).trans (h'.w i), fun i => (h.x i).trans (h'.x i),
    fun i => (h.hv i).trans (h'.hv i), fun k => (h.out k).trans (h'.out k), h.pc.trans h'.pc, h.busy.trans h'.busy,
    h.done.trans h'.done⟩

/-! The values computed with -/

theorem wVal (h : SameData s s') (i : Nat) : s.wVal i = s'.wVal i := congrArg Marked.value (h.w i)
theorem xVal (h : SameData s s') (i : Nat) : s.xVal i = s'.xVal i := congrArg Marked.value (h.x i)
theorem hvVal (h : SameData s s') (i : Nat) : s.hvVal i = s'.hvVal i := congrArg Marked.value (h.hv i)

theorem regs (h : SameData s s') : s.regs = s'.regs := by simp only [State.regs, h.xVal]

theorem expandedWord (h : SameData s s') (n : Nat) : s.expandedWord n = s'.expandedWord n := by
  simp only [State.expandedWord, h.wVal]

theorem memRead8 (h : SameData s s') {a : Nat} (ha : a + 8 ≤ 96) : s.memRead8 a = s'.memRead8 a := by
  have byte : ∀ k < 96, s.mByte k = s'.mByte k := fun k hk => congrArg (·.getD 0#8) (h.m k hk)
  unfold State.memRead8
  rw [byte _ (by omega), byte _ (by omega), byte _ (by omega), byte _ (by omega), byte _ (by omega), byte _ (by omega),
    byte _ (by omega), byte _ (by omega)]

/-! The updates -/

theorem advance (h : SameData s s') : SameData s.advance s'.advance := { h with pc := congrArg (· + 1#8) h.pc }

theorem setFinished (h : SameData s s') : SameData s.setFinished s'.setFinished := { h with busy := rfl, done := rfl }

theorem writeW (h : SameData s s') (i : Nat) (v : Word) : SameData (s.writeW i v) (s'.writeW i v) :=
  { h with w := fun j => by simp only [State.wElem_writeW, h.w] }

theorem writeX (h : SameData s s') (f : Nat → Word) : SameData (s.writeX f) (s'.writeX f) :=
  { h with x := fun i => by simp only [State.xElem_writeX] }

theorem writeHv (h : SameData s s') (f : Nat → Word) : SameData (s.writeHv f) (s'.writeHv f) :=
  { h with hv := fun i => by simp only [State.hvElem_writeHv] }

theorem writeOut (h : SameData s s') (f : Nat → Word) : SameData (s.writeOut f) (s'.writeOut f) where
  m := by simpa using h.m
  w := by simpa using h.w
  x := by simpa using h.x
  hv := by simpa using h.hv
  out k := by simp only [State.writeOut_out, read?_serialize, h.out]
  pc := by simpa using h.pc
  busy := by simpa using h.busy
  done := by simpa using h.done

theorem assembleBlock (h : SameData s s') : SameData s.assembleBlock s'.assembleBlock where
  m := by simpa using h.m
  w j := by
    simp only [State.wElem_assembleBlock, h.w]
    by_cases hj : j < 12
    · rw [if_pos hj, if_pos hj, h.memRead8 (by omega)]
    · rw [if_neg hj, if_neg hj]
  x := by simpa using h.x
  hv := by simpa using h.hv
  out := by simpa using h.out
  pc := by simpa using h.pc
  busy := by simpa using h.busy
  done := by simpa using h.done

/-- START leaves nothing of `W`, `x`, `HV`, `OUT`, `pc` or the status for states with the same `M` to differ in
(44 R138). -/
theorem start (hs : s.busy = false) (hs' : s'.busy = false) (hm : ∀ k < 96, s.m.read? k = s'.m.read? k) :
    SameData (effectOf .start s) (effectOf .start s') := by
  rw [effectOf_start_idle hs, effectOf_start_idle hs']
  exact ⟨hm, fun _ => rfl, fun _ => rfl, fun _ => rfl, fun _ => rfl, rfl, rfl, rfl⟩

end SameData

/-- An instruction's effect depends on the block's data alone. -/
theorem SameData.effect {s s' : State} (h : SameData s s') (i : Instr) :
    SameData (effectOf i s) (effectOf i s') := by
  cases i with
  | asm => exact h.assembleBlock.advance
  | exp n => simp only [effectOf, h.expandedWord]; exact (h.writeW _ _).advance
  | init => exact (h.writeX _).advance
  | rnd r => simp only [effectOf, h.regs, h.wVal]; exact (h.writeX _).advance
  | fin => simp only [effectOf, h.xVal]; exact (h.writeHv _).advance
  | ser => simp only [effectOf, funext h.hvVal]; exact (h.writeOut _).advance
  | halt => exact h.setFinished
  | start =>
    cases hb : s.busy with
    | true => rwa [effectOf_start_busy hb, effectOf_start_busy (h.busy ▸ hb)]
    | false => exact .start hb (h.busy ▸ hb) h.m

end Sys2Proof.Laws
end

section
/-! SUPPORT. A running call: what its micro-operations have written so far, and that they read nothing else (70 R176). -/
namespace Sys2Proof.Laws
open Sys2Proof.Machine Sys2Proof.Safety

/-- Every micro-operation but HALT leads to the next entry of `UROM` and leaves `BUSY` (44 R146). -/
theorem effectOf_pc_busy {i : Instr} (hh : i ≠ .halt) (hs : i ≠ .start) (s : State) :
    (effectOf i s).pc = s.pc + 1#8 ∧ (effectOf i s).busy = s.busy := by
  cases i with
  | halt => exact absurd rfl hh
  | start => exact absurd rfl hs
  | asm | exp n | init | rnd r | fin | ser => simp [effectOf]

/-- No instruction touches `M` (44 R138, 20 R50). -/
@[simp] theorem effectOf_m (i : Instr) (s : State) : (effectOf i s).m = s.m := by
  cases i with
  | start =>
    cases hb : s.busy with
    | true => rw [effectOf_start_busy hb]
    | false => rw [effectOf_start_idle hb]
  | asm | exp n | init | rnd r | fin | ser | halt => simp [effectOf]

/-- What the sequencer fetches has a legal operand and is not the host's command. -/
theorem wf_of_fetched {s : State} {i : Instr} (h : s.fetched = .ok i) : i.wf = true ∧ i ≠ .start := by
  obtain ⟨-, rfl⟩ | ⟨n, hn, -, rfl⟩ | ⟨-, rfl⟩ | ⟨r, hr, -, rfl⟩ | ⟨-, rfl⟩ | ⟨-, rfl⟩ | ⟨-, rfl⟩ := fetched_cases h
  · exact ⟨rfl, by simp⟩
  · exact ⟨decide_eq_true hn, by simp⟩
  · exact ⟨rfl, by simp⟩
  · exact ⟨decide_eq_true hr, by simp⟩
  · exact ⟨rfl, by simp⟩
  · exact ⟨rfl, by simp⟩
  · exact ⟨rfl, by simp⟩

theorem pc_le_of_fetched {s : State} {i : Instr} (h : s.fetched = .ok i) : s.pc.toNat ≤ 148 := by
  obtain ⟨hp, -⟩ | ⟨n, ⟨-, hn⟩, hp, -⟩ | ⟨hp, -⟩ | ⟨r, hr, hp, -⟩ | ⟨hp, -⟩ | ⟨hp, -⟩ | ⟨hp, -⟩ := fetched_cases h <;> omega

/-- HALT stands at 148 and nowhere else (44 R136). -/
theorem fetched_eq_halt_iff {s : State} {i : Instr} (h : s.fetched = .ok i) : i = .halt ↔ s.pc.toNat = 148 := by
  obtain ⟨hp, rfl⟩ | ⟨n, ⟨-, hn⟩, hp, rfl⟩ | ⟨hp, rfl⟩ | ⟨r, hr, hp, rfl⟩ | ⟨hp, rfl⟩ | ⟨hp, rfl⟩ | ⟨hp, rfl⟩ :=
    fetched_cases h <;> simp <;> omega

theorem wordsWritten_of_pos {p : Nat} (h : 0 < p) : wordsWritten p = min 80 (p + 15) := if_neg (by omega)

/-- A running call has written everything its next micro-operation reads, `M` being the host's to write (70 R172,
R176). -/
theorem readsWritten_of_callProgress {s : State} {i : Instr} (hf : s.fetched = .ok i) (hp : CallProgress s)
    (hm : s.pc.toNat = 0 → MLoaded s) : ReadsWritten i s := by
  obtain ⟨hw, hx, hhv, -⟩ := hp
  obtain ⟨h, rfl⟩ | ⟨n, ⟨hn, hn'⟩, h, rfl⟩ | ⟨h, rfl⟩ | ⟨r, hr, h, rfl⟩ | ⟨h, rfl⟩ | ⟨h, rfl⟩ | ⟨h, rfl⟩ := fetched_cases hf
  · rintro e ⟨k, hk, rfl⟩
    exact hm h k hk
  · rw [wordsWritten_of_pos (by omega)] at hw
    rintro e (rfl | rfl | rfl | rfl)
    all_goals exact hw _ (by omega)
  · exact fun e he => he.elim
  · rw [wordsWritten_of_pos (by omega)] at hw
    rintro e (⟨j, hj, rfl⟩ | rfl)
    · exact hx (by omega) j hj
    · exact hw _ (by omega)
  · rintro e ⟨j, hj, rfl⟩
    exact hx (by omega) j hj
  · rintro e ⟨j, hj, rfl⟩
    exact hhv (by omega) j hj
  · exact fun e he => he.elim

/-- Every micro-operation of a call but HALT leads to the next entry of `UROM` and goes on with the call (44 R146). -/
theorem effectOf_fetched_next {s : State} {i : Instr} (hf : s.fetched = .ok i) (hpc : s.pc.toNat ≠ 148) :
    (effectOf i s).pc.toNat = s.pc.toNat + 1 ∧ (effectOf i s).busy = s.busy := by
  have hh := mt (fetched_eq_halt_iff hf).1 hpc
  obtain ⟨-, hs⟩ := wf_of_fetched hf
  obtain ⟨hnext, hbusy⟩ := effectOf_pc_busy hh hs s
  have hle := pc_le_of_fetched hf
  have hlt : s.pc.toNat + (1#8).toNat < 2 ^ 8 := Nat.lt_of_le_of_lt (Nat.succ_le_succ hle) (by decide)
  exact ⟨by rw [hnext, BitVec.toNat_add_of_lt hlt]; rfl, hbusy⟩

/-- A micro-operation of a running call writes what the call is to have written at the next one (70 R176). -/
theorem callProgress_effectOf {s : State} {i : Instr} (hf : s.fetched = .ok i) (hpc : s.pc.toNat ≠ 148)
    (hp : CallProgress s) : CallProgress (effectOf i s) := by
  obtain ⟨hnext, -⟩ := effectOf_fetched_next hf hpc
  obtain ⟨hw, hx, hhv, -⟩ := hp
  unfold CallProgress
  rw [hnext, wordsWritten_of_pos (Nat.succ_pos _)]
  obtain ⟨h, rfl⟩ | ⟨n, ⟨hn, hn'⟩, h, rfl⟩ | ⟨h, rfl⟩ | ⟨r, hr, h, rfl⟩ | ⟨h, rfl⟩ | ⟨h, rfl⟩ | ⟨h, rfl⟩ := fetched_cases hf
  · refine ⟨fun j hj => ?_, by omega, by omega, by omega⟩
    have : j < 12 ∨ j = 12 ∨ j = 13 ∨ j = 14 ∨ j = 15 := by omega
    rw [effectOf, State.wElem_advance, State.wElem_assembleBlock]
    rcases this with hj | rfl | rfl | rfl | rfl
    · rw [if_pos hj]
    all_goals rfl
  all_goals rw [wordsWritten_of_pos (by omega)] at hw
  · refine ⟨fun j hj => ?_, by omega, by omega, by omega⟩
    rw [effectOf, State.wElem_advance, State.wElem_writeW]
    split
    · rfl
    · exact hw j (by omega)
  · refine ⟨fun j hj => hw j (by omega), fun _ j hj => ?_, by omega, by omega⟩
    rw [effectOf, State.xElem_advance, State.xElem_writeX, if_pos hj]
  · refine ⟨fun j hj => hw j (by omega), fun _ j hj => ?_, by omega, by omega⟩
    rw [effectOf, State.xElem_advance, State.xElem_writeX, if_pos hj]
  · refine ⟨fun j hj => hw j (by omega), fun _ => hx (by omega), fun _ j hj => ?_, by omega⟩
    rw [effectOf, State.hvElem_advance, State.hvElem_writeHv, if_pos hj]
  · simp only [effectOf, State.wElem_advance, State.wElem_writeOut, State.xElem_advance, State.xElem_writeOut,
      State.hvElem_advance, State.hvElem_writeOut, State.advance_out, State.writeOut_out, read?_serialize]
    exact ⟨fun j hj => hw j (by omega), fun _ => hx (by omega), fun _ => hhv (by omega), fun _ k hk => by
      rw [if_pos hk]; rfl⟩
  · exact absurd h hpc

/-- A call is running, at a micro-operation of `UROM` that finds everything it reads written (70 R176). -/
structure InCall (s : State) : Prop where
  busy : s.busy = true
  pc_le : s.pc.toNat ≤ 148
  progress : CallProgress s
  loaded : MLoaded s

/-- One turn of the sequencer in a running call: the effect of the micro-operation fetched. It stands in the proofs for
`sequencerTurn` where that does not stop (`InCall.sequencerTurn_eq`). -/
def afterTurn (s : State) : State :=
  match s.fetched with
  | .ok i => effectOf i s
  | .error _ => s

theorem afterTurn_of_fetched {s : State} {i : Instr} (h : s.fetched = .ok i) : afterTurn s = effectOf i s := by
  simp only [afterTurn, h]

theorem SameData.fetched {s s' : State} (h : SameData s s') : s.fetched = s'.fetched := by
  simp only [State.fetched, h.pc]

theorem SameData.turn {s s' : State} (h : SameData s s') : SameData (afterTurn s) (afterTurn s') := by
  unfold afterTurn
  rw [h.fetched]
  cases s'.fetched with
  | ok i => exact h.effect i
  | error f => exact h

theorem SameData.turns {s s' : State} (h : SameData s s') (k : Nat) : SameData (afterTurn^[k] s) (afterTurn^[k] s') := by
  induction k with
  | zero => exact h
  | succ k ih => simpa only [Function.iterate_succ_apply'] using ih.turn

theorem SameData.inCall {s s' : State} (h : SameData s s') (hc : InCall s) : InCall s' := by
  obtain ⟨hbusy, hpc, ⟨hw, hx, hhv, hout⟩, hm⟩ := hc
  simp only [h.w, h.x, h.hv, h.out, h.pc] at hw hx hhv hout hpc
  exact ⟨h.busy ▸ hbusy, hpc, ⟨hw, hx, hhv, hout⟩, fun k hk => h.m k hk ▸ hm k hk⟩

namespace InCall

variable {s : State}

theorem sequencerTurn_eq (hc : InCall s) : sequencerTurn s = .next (afterTurn s) := by
  obtain ⟨i, hi⟩ := fetched_of_le hc.pc_le
  have hexec : exec i s = .next (afterTurn s) := (exec_next_iff _ _ _).2
    ⟨(wf_of_fetched hi).1, .inr (readsWritten_of_callProgress hi hc.progress fun _ => hc.loaded), afterTurn_of_fetched hi⟩
  simpa only [sequencerTurn, hc.busy, if_true, hi] using hexec

/-- Before HALT, a turn goes on with the call at the next micro-operation. -/
theorem turn (hc : InCall s) (h : s.pc.toNat ≠ 148) :
    InCall (afterTurn s) ∧ (afterTurn s).pc.toNat = s.pc.toNat + 1 := by
  obtain ⟨i, hi⟩ := fetched_of_le hc.pc_le
  obtain ⟨hpc, hbusy⟩ := effectOf_fetched_next hi h
  have hle := hc.pc_le
  rw [afterTurn_of_fetched hi]
  exact ⟨⟨hbusy.trans hc.busy, by omega, callProgress_effectOf hi h hc.progress, fun k hk => by
    rw [effectOf_m]; exact hc.loaded k hk⟩, hpc⟩

theorem turns (hc : InCall s) {k : Nat} (hk : s.pc.toNat + k ≤ 148) :
    InCall (afterTurn^[k] s) ∧ (afterTurn^[k] s).pc.toNat = s.pc.toNat + k := by
  induction k with
  | zero => exact ⟨hc, rfl⟩
  | succ k ih =>
    obtain ⟨hck, hpc⟩ := ih (by omega)
    obtain ⟨hck', hpc'⟩ := hck.turn (by omega)
    rw [Function.iterate_succ_apply']
    exact ⟨hck', by omega⟩

/-- At 148 a turn is HALT and ends the call (44 R137). -/
theorem turn_done (hc : InCall s) (h : s.pc.toNat = 148) : (afterTurn s).done = true := by
  obtain ⟨i, hi⟩ := fetched_of_le hc.pc_le
  rw [afterTurn_of_fetched hi, (fetched_eq_halt_iff hi).2 h, effectOf_halt]

end InCall

/-- While a call runs the host changes nothing of the block: its writes to `M` are dropped and its START is ignored
(44 R138, R140, R143). -/
theorem hostTurn_of_busy {s : State} (hb : s.busy = true) (op : HostOp) :
    ∃ t, hostTurn op s = .next t ∧ t.toBlock = s.toBlock := by
  cases op with
  | writeCtrl b =>
    refine ⟨s, ?_, rfl⟩
    change ctrlWrite b s = _
    unfold ctrlWrite
    cases hd : decode (.ctrl b) with
    | error e => rfl
    | ok i =>
      obtain rfl : i = .start := by
        simp only [decode, decodeCtrl] at hd
        split at hd
        · cases hd; rfl
        · cases hd
      exact if_pos hb
  | writeM k b => exact ⟨_, rfl, by simp only [State.hostAccess, State.hostWriteM, hb, if_true]⟩
  | readStatus | readM k | readOut k | readCtrl | writeStatus v | writeOut k b => exact ⟨_, rfl, rfl⟩

/-- Of the events during a call only the turns of the sequencer matter to the block. -/
theorem InCall.step_next {s : State} (hc : InCall s) (hr : nextEvent s ≠ .reset) :
    ∃ u, step s = .next u ∧ SameData u (afterTurn^[[nextEvent s].count .sequencer] s) := by
  have hs : SameData (afterEvent s) s := .of_toBlock rfl
  rw [step_eq_perform]
  cases he : nextEvent s with
  | reset => exact absurd he hr
  | sequencer => exact ⟨_, (hs.symm.inCall hc).sequencerTurn_eq, hs.turn⟩
  | host op =>
    obtain ⟨u, hu, hblock⟩ := hostTurn_of_busy (s := afterEvent s) hc.busy op
    exact ⟨u, hu, .of_toBlock hblock⟩

/-- A running call up to HALT, whatever the host does meanwhile (20 R60): no step stops, and the block is as after the
turns of the sequencer among the events, one after another. -/
theorem InCall.runSteps_before_halt {n : Nat} {s : State} (hc : InCall s) (hr : .reset ∉ events n s)
    (hn : s.pc.toNat + (events n s).count .sequencer ≤ 148) :
    ∃ t, runSteps n s = .next t ∧ SameData t (afterTurn^[(events n s).count .sequencer] s) := by
  induction n generalizing s with
  | zero => exact ⟨s, rfl, .refl s⟩
  | succ n ih =>
    have hev : events (n + 1) s = [nextEvent s] ++ events n (afterEvent s) := events_succ_eq_cons n s
    rw [hev, List.mem_append, List.mem_singleton, not_or] at hr
    rw [hev, List.count_append] at hn ⊢
    obtain ⟨u, hu, hdata⟩ := hc.step_next (Ne.symm hr.1)
    rw [events_of_step hu] at hr hn ⊢
    obtain ⟨hcu, hpc⟩ := hc.turns (k := [nextEvent s].count .sequencer) (by omega)
    rw [← hdata.pc] at hpc
    obtain ⟨t, ht, hdata'⟩ := ih (hdata.symm.inCall hcu) hr.2 (by omega)
    refine ⟨t, (runSteps_succ hu n).trans ht, hdata'.trans ?_⟩
    rw [Nat.add_comm, Function.iterate_add_apply]
    exact hdata.turns _

/-- The rest of a running call, HALT included, up to its last turn of the sequencer: it ends the call. -/
theorem InCall.runSteps_to_end {n : Nat} {s : State} (hc : InCall s) (hr : .reset ∉ events n s)
    (hn : s.pc.toNat + (events n s).count .sequencer = 149) (hlast : (events n s).getLast? = some .sequencer) :
    ∃ t, runSteps n s = .next t ∧ t.done = true ∧ SameData t (afterTurn^[(events n s).count .sequencer] s) := by
  obtain _ | n := n
  · cases hlast
  obtain ⟨e, hev⟩ := events_succ_eq_append n s
  rw [hev, List.getLast?_concat] at hlast
  cases hlast
  rw [hev, List.mem_append, not_or] at hr
  have hcount : (events (n + 1) s).count .sequencer = (events n s).count .sequencer + 1 := by
    rw [hev, List.count_append, List.count_singleton_self]
  rw [hcount] at hn ⊢
  obtain ⟨t, ht, hts⟩ := hc.runSteps_before_halt hr.1 (by omega)
  obtain ⟨hcall, hpc⟩ := hc.turns (k := (events n s).count .sequencer) (by omega)
  rw [← hts.pc] at hpc
  have hct : InCall t := hts.symm.inCall hcall
  obtain ⟨hrun, hev'⟩ := runSteps_succ_last ht
  have hseq : nextEvent t = .sequencer := by simpa [hev] using hev'.symm
  obtain ⟨v, hv, hvt⟩ := hct.step_next (by simp [hseq])
  rw [hseq] at hvt
  refine ⟨v, hrun.trans hv, hvt.done.trans (hct.turn_done (by omega)), ?_⟩
  rw [Function.iterate_succ_apply']
  exact hvt.trans hts.turn

/-- The call the next START begins in an idle block whose `M` is written. -/
theorem inCall_start {s : State} (hs : s.busy = false) (hm : MLoaded s) : InCall (effectOf .start s) := by
  rw [effectOf_start_idle hs]
  refine ⟨rfl, Nat.zero_le _, ⟨fun j hj => ?_, ?_, ?_, ?_⟩, hm⟩
  · exact absurd hj (Nat.not_lt_zero j)
  all_goals exact fun h => absurd h (Nat.not_succ_le_zero _)

/-- The host's write of 1 to `CTRL` begins a call in an idle block (44 R138). -/
theorem step_start {s : State} (hs : s.busy = false) (he : nextEvent s = .host (.writeCtrl 1#1)) :
    ∃ u, step s = .next u ∧ SameData u (effectOf .start s) := by
  refine ⟨effectOf .start (afterEvent s), ?_, .start (s := afterEvent s) hs hs fun _ _ => rfl⟩
  rw [step_eq_perform, he]
  exact (exec_next_iff .start _ _).2 ⟨rfl, .inr fun e he => he.elim, rfl⟩

/-- A whole call from a START on, whatever the host does meanwhile: it ends, and the block is as after START and 149
turns of the sequencer (44 R147). -/
theorem runSteps_of_endsACall {n : Nat} {s : State} (hs : s.busy = false) (he : nextEvent s = .host (.writeCtrl 1#1))
    (hn : EndsACall n s) (hm : MLoaded s) :
    ∃ t, runSteps n s = .next t ∧ t.done = true ∧ SameData t (afterTurn^[149] (effectOf .start s)) := by
  obtain ⟨hr, hcount, hlast⟩ := hn
  obtain _ | n := n
  · cases hlast
  obtain ⟨u, hu, hus⟩ := step_start hs he
  have hcu : InCall u := hus.symm.inCall (inCall_start hs hm)
  have hpc : u.pc.toNat = 0 := by rw [hus.pc, effectOf_start_idle hs]; rfl
  have hev : events (n + 1) s = .host (.writeCtrl 1#1) :: events n u := by
    rw [events_succ_eq_cons, he, events_of_step hu]
  have hcount : (events n u).count .sequencer = 149 := by simpa [hev] using hcount
  have hlast : (events n u).getLast? = some .sequencer := by
    rw [hev, List.getLast?_cons] at hlast
    cases hl : (events n u).getLast? with
    | none => simp [hl] at hlast
    | some e => simpa [hl] using hlast
  obtain ⟨t, ht, hdone, htu⟩ := hcu.runSteps_to_end (fun h => hr (hev ▸ List.mem_cons_of_mem _ h)) (by omega) hlast
  rw [hcount] at htu
  exact ⟨t, (runSteps_succ hu n).trans ht, hdone, htu.trans (hus.turns 149)⟩

end Sys2Proof.Laws
end

section
/-! The result of a call (00_scope R12). -/
namespace Sys2Proof.Laws
open Sys2Proof.Machine Sys2Proof.Safety

/-- Settles O43: both runs end as the 149 turns of the sequencer alone would after their START, and START leaves the two
blocks nothing but `M` to differ in. -/
theorem resultDependsOnlyOnTheMessage : Obligations.ResultDependsOnlyOnTheMessage := by
  intro s s' n n' hs hs' he he' hn hn' hm hmm
  have hm' : MLoaded s' := fun k hk => hmm k hk ▸ hm k hk
  obtain ⟨t, ht, hdone, hts⟩ := runSteps_of_endsACall hs he hn hm
  obtain ⟨t', ht', hdone', hts'⟩ := runSteps_of_endsACall hs' he' hn' hm'
  have hstart : SameData (effectOf .start s) (effectOf .start s') := .start hs hs' hmm
  have hend : SameData t t' := (hts.trans (hstart.turns 149)).trans hts'.symm
  exact ⟨t, t', ht, ht', hdone, hdone', fun k _ => hend.out k⟩

end Sys2Proof.Laws
end

section
/-! ASM (spec/40): the words it assembles and what else it leaves, said of its effect. -/
namespace Sys2Proof.Laws
open Sys2Proof.Machine Sys2Proof.Safety

theorem bigEndian_congr {b c : Nat → Byte} (h : ∀ k < 8, b k = c k) : bigEndian b = bigEndian c := by
  simp only [bigEndian, h 0 (by decide), h 1 (by decide), h 2 (by decide), h 3 (by decide), h 4 (by decide),
    h 5 (by decide), h 6 (by decide), h 7 (by decide)]

/-- A read of eight bytes is their big-endian word (20_memory R51). -/
theorem memRead8_eq_bigEndian (s : State) (a : Nat) : s.memRead8 a = bigEndian fun k => s.mByte (a + k) :=
  be64_eq fun k => s.mByte (a + k)

/-- What ASM reads is all of `M` (70 R172). -/
theorem readsWritten_asm {s : State} (h : MLoaded s) : ReadsWritten .asm s := by
  rintro _ ⟨k, hk, rfl⟩
  exact h k hk

/-- The effect of ASM is the one of 40 R90 and R91, on whatever bytes the model finds in `M`. -/
theorem asmEffect_effectOf {s : State} {b : Nat → Byte} (h : ∀ k < 96, s.mByte k = b k) :
    AsmEffect b s (effectOf .asm s) := by
  have elem : ∀ j, (effectOf .asm s).wElem j = s.assembleBlock.wElem j := s.assembleBlock.wElem_advance
  simp only [AsmEffect, elem, State.wElem_assembleBlock]
  refine ⟨fun j hj => ?_, rfl, rfl, rfl, rfl, fun j hj => ?_, effectOf_asm s⟩
  · rw [if_pos hj, memRead8_eq_bigEndian, bigEndian_congr fun k hk => h (8 * j + k) (by omega)]
  · rw [if_neg (by omega), if_neg (by omega), if_neg (by omega), if_neg (by omega), if_neg (by omega)]

/-- Settles O9: with `M` written ASM runs, and its effect takes the bytes of `M` for `b`. -/
theorem asmAssemblesTheBlock : Obligations.AsmAssemblesTheBlock := by
  intro s b hb
  have hread : ReadsWritten .asm s := readsWritten_asm fun k hk => by rw [hb k hk]; rfl
  have hbyte : ∀ k < 96, s.mByte k = b k := fun k hk => by rw [State.mByte, hb k hk]; rfl
  exact ⟨effectOf .asm s, (exec_next_iff _ _ _).2 ⟨rfl, .inr hread, rfl⟩, asmEffect_effectOf hbyte⟩

end Sys2Proof.Laws
end

section
/-! EXP (spec/41): the word it computes and what else it leaves, said of its effect. -/
namespace Sys2Proof.Laws
open Sys2Proof.Machine Sys2Proof.Safety

/-- The word EXP computes is the sum of 41 R100. -/
theorem expandedWord_eq (s : State) (n : Nat) :
    s.expandedWord n = s.wVal (n - 16) + sigma0 (s.wVal (n - 15)) + s.wVal (n - 7) + sigma1 (s.wVal (n - 2)) := by
  rw [State.expandedWord, expandWord, smallSigma0_eq, smallSigma1_eq]

/-- The word EXP computes depends on the words below its own alone. -/
theorem expandedWord_congr {s t : State} {n : Nat} (hn : 16 ≤ n) (h : ∀ j < n, s.wElem j = t.wElem j) :
    s.expandedWord n = t.expandedWord n := by
  have value : ∀ j < n, s.wVal j = t.wVal j := fun j hj => congrArg Marked.value (h j hj)
  unfold State.expandedWord
  rw [value (n - 16) (by omega), value (n - 15) (by omega), value (n - 7) (by omega), value (n - 2) (by omega)]

theorem wElem_effectOf_exp {i : BitVec 7} (hi : i.toNat ≤ 79) (s : State) (j : Nat) :
    (effectOf (.exp i) s).wElem j = if i.toNat = j then ⟨s.expandedWord i.toNat, true⟩ else s.wElem j := by
  have hlt : i.toNat < 80 := by omega
  simp only [effectOf, State.wElem_advance, State.wElem_writeW, hlt, and_true]

/-- The effect of EXP is the one of 41 R100. -/
theorem expEffect_effectOf {i : BitVec 7} (hi : i.toNat ≤ 79) (s : State) :
    ExpEffect i.toNat s (effectOf (.exp i) s) := by
  refine ⟨?_, fun j hj => ?_, effectOf_exp i s⟩
  · rw [wElem_effectOf_exp hi, if_pos rfl, expandedWord_eq]
  · rw [wElem_effectOf_exp hi, if_neg hj.symm]

/-- With its taps written, EXP runs. -/
theorem exec_exp_of_readsWritten {i : BitVec 7} (hi : expIndexOk i) {s : State} (hr : ReadsWritten (.exp i) s) :
    exec (.exp i) s = .next (effectOf (.exp i) s) :=
  (exec_next_iff _ _ _).2 ⟨decide_eq_true hi, .inr hr, rfl⟩

/-- All four taps of EXP lie below the word it writes. -/
theorem readsWritten_exp {i : BitVec 7} (hi : 16 ≤ i.toNat) {s : State}
    (h : ∀ j < i.toNat, s.isWritten (.w j) = true) : ReadsWritten (.exp i) s := by
  rintro e (rfl | rfl | rfl | rfl) <;> exact h _ (by omega)

/-- Settles O10: with its taps written EXP runs, and its effect is the one stated. -/
theorem expExpandsTheSchedule : Obligations.ExpExpandsTheSchedule := fun s _ h16 h79 hr =>
  ⟨_, exec_exp_of_readsWritten ⟨h16, h79⟩ hr, expEffect_effectOf h79 s⟩

end Sys2Proof.Laws
end

section
/-! SCHED (41 R101): the EXP in a row leave a `W` that satisfies the recurrence of 41 R100 throughout, and the
recurrence leaves no choice once `W[0..15]` are given. -/
namespace Sys2Proof.Laws
open Sys2Proof.Machine Sys2Proof.Safety

/-- A list of instructions and one more. -/
theorem execSeq_concat {is : List Instr} {s t : State} (h : execSeq is s = .next t) (i : Instr) :
    execSeq (is ++ [i]) s = exec i t := by
  induction is generalizing s with
  | nil =>
    cases h
    simp only [List.nil_append, execSeq]
    cases exec i t <;> rfl
  | cons j js ih =>
    cases hj : exec j s with
    | next u =>
      simp only [List.cons_append, execSeq, hj] at h ⊢
      exact ih h
    | fault f => simp [execSeq, hj] at h
    | refused r => simp [execSeq, hj] at h

/-- `t` holds the block words of `s`, and its `W[16..n-1]` are what the recurrence of 41 R100 makes of `t`'s own `W`. -/
structure Scheduled (n : Nat) (s t : State) : Prop where
  block : ∀ j < 16, t.wElem j = s.wElem j
  expanded : ∀ i, 16 ≤ i → i < n → t.wElem i = ⟨t.expandedWord i, true⟩

namespace Scheduled

variable {n : Nat} {s s' t t' : State}

theorem isWritten (h : Scheduled n s t) (hs : ∀ j < 16, s.isWritten (.w j) = true) :
    ∀ j < n, t.isWritten (.w j) = true := by
  intro j hj
  by_cases hb : j < 16
  · rw [State.isWritten, h.block j hb]
    exact hs j hb
  · rw [State.isWritten, h.expanded j (by omega) hj]

/-- One EXP more: it leaves every word so far, so the recurrence still holds of them, and adds the next. -/
theorem exp {i : BitVec 7} (hi : expIndexOk i) (h : Scheduled i.toNat s t) :
    Scheduled (i.toNat + 1) s (effectOf (.exp i) t) := by
  obtain ⟨hi16, hi79⟩ := hi
  have below : ∀ j < i.toNat, (effectOf (.exp i) t).wElem j = t.wElem j := fun j hj => by
    rw [wElem_effectOf_exp hi79, if_neg (by omega)]
  refine ⟨fun j hj => (below j (by omega)).trans (h.block j hj), fun k hk16 hk => ?_⟩
  rw [expandedWord_congr hk16 fun j hj => below j (by omega)]
  by_cases hki : i.toNat = k
  · rw [wElem_effectOf_exp hi79, if_pos hki, hki]
  · rw [below k (by omega), h.expanded k hk16 (by omega)]

/-- Equal blocks have equal schedules. -/
theorem unique (h : Scheduled n s t) (h' : Scheduled n s' t') (hb : ∀ j < 16, s.wElem j = s'.wElem j) (j : Nat)
    (hj : j < n) : t.wElem j = t'.wElem j := by
  induction j using Nat.strong_induction_on with
  | h j ih =>
    by_cases hj16 : j < 16
    · rw [h.block j hj16, h'.block j hj16, hb j hj16]
    · rw [h.expanded j (by omega) hj, h'.expanded j (by omega) hj,
        expandedWord_congr (by omega) fun k hk => ih k hk (by omega)]

end Scheduled

/-- The first `n` EXP of SCHED, from a written block: none stops, and `n` words of the schedule are added. -/
theorem execSeq_exps {s : State} (hs : ∀ j < 16, s.isWritten (.w j) = true) {n : Nat} (hn : n ≤ 64) :
    ∃ t, execSeq ((List.range n).map fun k => .exp (BitVec.ofNat 7 (16 + k))) s = .next t ∧ Scheduled (16 + n) s t := by
  induction n with
  | zero => exact ⟨s, rfl, fun _ _ => rfl, fun _ _ _ => by omega⟩
  | succ n ih =>
    obtain ⟨t, ht, hst⟩ := ih (by omega)
    have hi : (BitVec.ofNat 7 (16 + n)).toNat = 16 + n := Nat.mod_eq_of_lt (show 16 + n < 2 ^ 7 by omega)
    have hok : expIndexOk (BitVec.ofNat 7 (16 + n)) := by rw [expIndexOk, hi]; omega
    rw [← hi] at hst
    rw [List.range_succ, List.map_append, List.map_singleton, execSeq_concat ht]
    refine ⟨_, exec_exp_of_readsWritten hok (readsWritten_exp hok.1 (hst.isWritten hs)), ?_⟩
    have hnext := hst.exp hok
    rwa [hi] at hnext

/-- Settles O47: both runs satisfy the recurrence, which determines `W` from the block. -/
theorem scheduleIsAFunctionOfTheBlock : Obligations.ScheduleIsAFunctionOfTheBlock := by
  intro s s' hs hs' hval
  have hblock : ∀ j < 16, s.wElem j = s'.wElem j := fun j hj =>
    (Marked.mk.injEq ..).mpr ⟨hval j hj, (hs j hj).trans (hs' j hj).symm⟩
  obtain ⟨t, ht, hst⟩ := execSeq_exps hs (Nat.le_refl 64)
  obtain ⟨t', ht', hst'⟩ := execSeq_exps hs' (Nat.le_refl 64)
  exact ⟨t, t', ht, ht', hst.unique hst' hblock, hst.block⟩

end Sys2Proof.Laws
end

section
/-! INIT and RND (spec/42): the working registers they leave and what else, said of their effects. -/
namespace Sys2Proof.Laws
open Sys2Proof.Machine Sys2Proof.Safety

theorem xElem_effectOf_init (s : State) : ∀ j < 8, (effectOf .init s).xElem j = ⟨iv j, true⟩ := by
  intro j hj
  rw [effectOf, State.xElem_advance, State.xElem_writeX, if_pos hj]

theorem xElem_effectOf_rnd (r : BitVec 7) (s : State) : ∀ j < 8,
    (effectOf (.rnd r) s).xElem j = ⟨(roundRegs s.regs (kConst r.toNat) (s.wVal r.toNat)).get j, true⟩ := by
  intro j hj
  rw [effectOf, State.xElem_advance, State.xElem_writeX, if_pos hj]

/-- The model's `T1` is the sum of 42 R111, the labels being the registers of 10_state R21. -/
theorem roundT1_regs (r : Nat) (s : State) : roundT1 s.regs (kConst r) (s.wVal r) = t1Of r s := by
  rw [roundT1, bigSigma1_eq, choose_eq]
  rfl

/-- The model's `T2` is the sum of 42 R111. -/
theorem roundT2_regs (s : State) : roundT2 s.regs = t2Of s := by
  rw [roundT2, bigSigma0_eq, majority_eq]
  rfl

/-- The register movement of 42 R111 and R112, each register from those before the step. -/
theorem roundRegs_regs (r : Nat) (s : State) :
    roundRegs s.regs (kConst r) (s.wVal r) =
      ⟨t1Of r s + t2Of s, s.xVal 0, s.xVal 1, s.xVal 2, s.xVal 3 + t1Of r s, s.xVal 4, s.xVal 5, s.xVal 6⟩ := by
  rw [roundRegs, roundT1_regs, roundT2_regs]
  rfl

/-- The effect of INIT is the one of 42 R110, the table `IV` holding the values of 10_state R30. -/
theorem initEffect_effectOf (s : State) : InitEffect s (effectOf .init s) := by
  have x := xElem_effectOf_init s
  exact ⟨x 0 (by decide), x 1 (by decide), x 2 (by decide), x 3 (by decide), x 4 (by decide), x 5 (by decide),
    x 6 (by decide), x 7 (by decide), effectOf_init s⟩

/-- The effect of RND is the one of 42 R111 and R112. -/
theorem rndEffect_effectOf (r : BitVec 7) (s : State) : RndEffect r.toNat s (effectOf (.rnd r) s) := by
  have x := xElem_effectOf_rnd r s
  rw [roundRegs_regs] at x
  exact ⟨x 0 (by decide), x 1 (by decide), x 2 (by decide), x 3 (by decide), x 4 (by decide), x 5 (by decide),
    x 6 (by decide), x 7 (by decide), effectOf_rnd r s⟩

/-- With the working registers and `W[r]` written, RND runs. -/
theorem exec_rnd_of_readsWritten {r : BitVec 7} (hr : rndIndexOk r) {s : State} (hread : ReadsWritten (.rnd r) s) :
    exec (.rnd r) s = .next (effectOf (.rnd r) s) :=
  (exec_next_iff _ _ _).2 ⟨decide_eq_true hr, .inr hread, rfl⟩

/-- INIT reads nothing, so it runs in every state. -/
theorem exec_init (s : State) : exec .init s = .next (effectOf .init s) :=
  (exec_next_iff _ _ _).2 ⟨rfl, .inr fun _ he => he.elim, rfl⟩

/-- Settles O12: with what it reads written RND runs, and its effect is the one stated. -/
theorem rndPerformsOneRound : Obligations.RndPerformsOneRound := fun s r hr hread =>
  ⟨_, exec_rnd_of_readsWritten hr hread, rndEffect_effectOf r s⟩

/-- Settles O11: INIT always runs, and its effect is the one stated. -/
theorem initLoadsTheInitialHashValue : Obligations.InitLoadsTheInitialHashValue := fun s =>
  ⟨_, exec_init s, initEffect_effectOf s⟩

end Sys2Proof.Laws
end

section
/-! FIN and SER (spec/43): the output words and the bytes they leave and what else, said of their effects. -/
namespace Sys2Proof.Laws
open Sys2Proof.Machine Sys2Proof.Safety

/-- The effect of FIN is the one of 43 R125. -/
theorem finEffect_effectOf (s : State) : FinEffect s (effectOf .fin s) := by
  refine ⟨fun i hi => ?_, effectOf_fin s⟩
  rw [effectOf, State.hvElem_advance, State.hvElem_writeHv, if_pos hi]

/-- SER leaves byte `a mod 8` of word `a / 8` at each address `a` below 64, and what was there at every other. -/
theorem read?_out_effectOf_ser (s : State) (a : Nat) :
    (effectOf .ser s).out.read? a = if a < 64 then some (wordByte (s.hvVal (a / 8)) (a % 8)) else s.out.read? a := by
  rw [effectOf, State.advance_out, State.writeOut_out, read?_serialize, byteOf_eq]

/-- The effect of SER is the one of 43 R126: address `8i + k` belongs to word `i` and byte `k`. -/
theorem serEffect_effectOf (s : State) : SerEffect s (effectOf .ser s) := by
  refine ⟨fun i hi k hk => ?_, fun a ha => ?_, by rw [effectOf_ser]⟩
  · have hword : (8 * i + k) / 8 = i := by omega
    have hbyte : (8 * i + k) % 8 = k := by omega
    rw [read?_out_effectOf_ser, if_pos (by omega), hword, hbyte]
  · rw [read?_out_effectOf_ser, if_neg (by omega)]

/-- With everything it reads written, a well-formed instruction runs. -/
theorem exec_of_readsWritten {i : Instr} {s : State} (hi : i.wf = true) (hread : ReadsWritten i s) :
    exec i s = .next (effectOf i s) :=
  (exec_next_iff _ _ _).2 ⟨hi, .inr hread, rfl⟩

/-- Settles O13: with what it reads written FIN runs, and its effect is the one stated. -/
theorem finAddsTheInitialHashValue : Obligations.FinAddsTheInitialHashValue := fun s hread =>
  ⟨_, exec_of_readsWritten rfl hread, finEffect_effectOf s⟩

/-- Settles O14: with what it reads written SER runs, and its effect is the one stated. -/
theorem serSerializesBigEndian : Obligations.SerSerializesBigEndian := fun s hread =>
  ⟨_, exec_of_readsWritten rfl hread, serEffect_effectOf s⟩

end Sys2Proof.Laws
end

section
/-! SUPPORT. The code of an instruction: its two fields, its value, and that the decoder gives the instruction back
(30_encoding R71 to R75). -/
namespace Sys2Proof.Laws
open Sys2Proof.Machine

@[simp] theorem opField_microWord (op : BitVec 3) (idx : BitVec 7) : opField (microWord op idx) = op :=
  BitVec.extractLsb'_append_eq_left

@[simp] theorem idxField_microWord (op : BitVec 3) (idx : BitVec 7) : idxField (microWord op idx) = idx :=
  BitVec.extractLsb'_append_eq_right

/-- The operand stands below the opcode (30_encoding R71). -/
theorem toNat_microWord (op : BitVec 3) (idx : BitVec 7) :
    (microWord op idx).toNat = 0x080 * op.toNat + idx.toNat := by
  rw [microWord, BitVec.toNat_append, ← Nat.shiftLeft_add_eq_or_of_lt idx.isLt, Nat.shiftLeft_eq, Nat.mul_comm]

/-- Decoding gives back every instruction with a legal operand. -/
theorem decode_encode {i : Instr} (h : i.wf = true) : decode (encode i) = .ok i := by
  cases i with
  | exp n =>
    have hn : expIndexOk n := of_decide_eq_true h
    simp [encode, decode, decodeMicro, hn]
  | rnd r =>
    have hr : rndIndexOk r := of_decide_eq_true h
    simp [encode, decode, decodeMicro, hr]
  | asm | init | fin | ser | halt | start => rfl

end Sys2Proof.Laws
end

section
/-! The layout of `UROM` (44 R136). -/
namespace Sys2Proof.Laws
open Sys2Proof.Machine

/-- Every well-formed instruction has its place in `UROM`, START apart. -/
theorem uromPlace (i : Instr) : UromPlace.Statement i := by
  cases i with
  | asm => exact UromPlace.asm
  | exp n => exact UromPlace.exp n
  | init => exact UromPlace.init
  | rnd r => exact UromPlace.rnd r
  | fin => exact UromPlace.fin
  | ser => exact UromPlace.ser
  | halt => exact UromPlace.halt
  | start => exact UromPlace.start

/-- At its address a micro-operation stands with its encoding, which decodes to it. -/
theorem urom_uromAddress {i : Instr} (hi : i.wf = true) {p : Nat} (hp : uromAddress i = some p) {u : MicroWord}
    (hu : encode i = .micro u) : urom p = some u ∧ decode (.micro u) = .ok i := by
  refine ⟨?_, hu ▸ decode_encode hi⟩
  obtain rfl | ⟨q, hq, -, henc⟩ := uromPlace i hi
  · cases hp
  · obtain rfl : p = q := Option.some.inj (hp.symm.trans hq)
    rw [hu, Option.map_eq_some_iff] at henc
    obtain ⟨v, hv, hvu⟩ := henc
    rwa [← Code.micro.inj hvu]

/-- `UROM` ends at 148. -/
theorem urom_of_le {p : Nat} (h : 149 ≤ p) : urom p = none := by
  unfold urom
  repeat rw [if_neg (by omega)]

/-- What stands at a micro-operation's address, by its value and what it decodes to. -/
theorem exists_urom {i : Instr} (hi : i.wf = true) {p : Nat} (hp : uromAddress i = some p) {op : BitVec 3}
    {idx : BitVec 7} (hu : encode i = .micro (microWord op idx)) :
    ∃ u, urom p = some u ∧ u.toNat = 0x080 * op.toNat + idx.toNat ∧ decode (.micro u) = .ok i := by
  obtain ⟨hurom, hdec⟩ := urom_uromAddress hi hp hu
  exact ⟨_, hurom, toNat_microWord op idx, hdec⟩

/-- Settles O5: each entry stands at its instruction's address, opcode above operand. -/
theorem microprogramLayout : Obligations.MicroprogramLayout :=
  ⟨exists_urom (i := .asm) rfl rfl rfl,
    fun i hi => exists_urom (i := .exp i) (decide_eq_true hi) (if_pos hi) rfl,
    exists_urom (i := .init) rfl rfl rfl,
    fun r hr => exists_urom (i := .rnd r) (decide_eq_true hr) (if_pos hr) rfl,
    exists_urom (i := .fin) rfl rfl rfl,
    exists_urom (i := .ser) rfl rfl rfl,
    exists_urom (i := .halt) rfl rfl rfl,
    fun _ => urom_of_le⟩

end Sys2Proof.Laws
end

section
/-! HALT and START (44 R137, R138). -/
namespace Sys2Proof.Laws
open Sys2Proof.Machine Sys2Proof.Safety

/-- HALT reads nothing, so it runs in every state. -/
theorem exec_halt (s : State) : exec .halt s = .next (effectOf .halt s) :=
  exec_of_readsWritten rfl fun _ he => he.elim

/-- START reads nothing, so it is answered in every state. -/
theorem exec_start (s : State) : exec .start s = .next (effectOf .start s) :=
  exec_of_readsWritten rfl fun _ he => he.elim

/-- The effect of a START that finds `BUSY = 0` is the one of 44 R138: the cleared files mark no element written. -/
theorem startEffect_effectOf {s : State} (h : s.busy = false) : StartEffect s (effectOf .start s) := by
  rw [effectOf_start_idle h]
  have unwritten (n i : Nat) : ((Vector.replicate n Marked.unset).getD i Marked.unset).written = false := by
    rw [getD_replicate_unset]; rfl
  exact ⟨rfl, rfl, rfl, unwritten 80, unwritten 8, unwritten 8, fun _ => rfl, rfl⟩

/-- Settles O15: HALT always runs, and its effect is the change of the status bits. -/
theorem haltEndsTheCall : Obligations.HaltEndsTheCall := fun s => by
  rw [exec_halt, effectOf_halt]

/-- Settles O16: START is always answered; `BUSY` decides which of its two effects it has. -/
theorem startBeginsACallOrIsIgnored : Obligations.StartBeginsACallOrIsIgnored := by
  intro s
  split
  · next hb => rw [exec_start, effectOf_start_busy hb]
  · next hb => exact ⟨_, exec_start s, startEffect_effectOf (Bool.eq_false_of_not_eq_true hb)⟩

end Sys2Proof.Laws
end

section
/-! The host's read of `STATUS` and its write to `M` (44 R139, R140). -/
namespace Sys2Proof.Laws
open Sys2Proof.Machine Sys2Proof.Safety

/-- The step performs the event that stands first on the agenda. -/
theorem step_of_agenda {s : State} {e : Event} {rest : List Event} (h : s.agenda = e :: rest) :
    step s = perform e { s with agenda := rest } := by
  rw [step_eq_perform, nextEvent, afterEvent, h, List.tail_cons]

/-- `BUSY` is bit 0 of `STATUS` (10_state R27). -/
theorem getLsbD_status_zero (s : State) : s.status.getLsbD 0 = s.busy := by
  rw [State.status, BitVec.getLsbD_append, if_pos Nat.one_pos]
  simp

/-- `DONE` is bit 1 of `STATUS` (10_state R27). -/
theorem getLsbD_status_one (s : State) : s.status.getLsbD 1 = s.done := by
  rw [State.status, BitVec.getLsbD_append, if_neg (Nat.lt_irrefl 1)]
  simp

theorem hostWriteM_of_busy {s : State} (h : s.busy = true) (k : Nat) (b : Byte) : s.hostWriteM k b = s := if_pos h

theorem hostWriteM_of_idle {s : State} (h : ¬s.busy = true) (k : Nat) (b : Byte) :
    s.hostWriteM k b = { s with m := s.m.write k b } := if_neg h

/-- Settles O24: the answer is `STATUS` itself. -/
theorem hostReadStatusGivesDoneBusy : Obligations.HostReadStatusGivesDoneBusy := fun s _ h =>
  ⟨s.status, getLsbD_status_zero s, getLsbD_status_one s, step_of_agenda h⟩

/-- Settles O25: the step is the host's write, and the byte space gives back what was written. -/
theorem hostWriteMStoresOrIsDropped : Obligations.HostWriteMStoresOrIsDropped := by
  intro s rest k b h
  have hstep : step s = .next (State.hostWriteM { s with agenda := rest } k b) := step_of_agenda h
  split
  · next hb => rw [hstep, hostWriteM_of_busy (s := { s with agenda := rest }) hb]
  · next hb =>
    rw [hostWriteM_of_idle (s := { s with agenda := rest }) hb] at hstep
    refine ⟨_, hstep, ?_, fun j hj => ?_, rfl⟩
    · rw [Memory.read?_write, if_pos rfl]
    · rw [Memory.read?_write, if_neg hj.symm]

end Sys2Proof.Laws
end

section
/-! Control transfer (44 R146). -/
namespace Sys2Proof.Laws
open Sys2Proof.Machine Sys2Proof.Safety

/-- No host access that is no command touches the step counter. -/
@[simp] theorem hostAccess_pc (s : State) (op : HostOp) : (s.hostAccess op).pc = s.pc := by
  cases op with
  | writeM k b => simp only [State.hostAccess, State.hostWriteM]; split <;> rfl
  | readStatus | readM k | readOut k | writeCtrl b | readCtrl | writeStatus v | writeOut k b => rfl

/-- A step that performs an instruction leaves its effect. -/
theorem step_eq_effectOf {s t : State} (h : step s = .next t) {i : Instr} (hp : performed s = some i) :
    t = effectOf i (afterEvent s) := by
  obtain ⟨j, hj, -, hexec, -⟩ | ⟨hn, -⟩ | ⟨hn, -⟩ | ⟨hn, -⟩ := step_next_cases h
  · obtain rfl : i = j := Option.some.inj (hp.symm.trans hj)
    exact ((exec_next_iff _ _ _).1 hexec).2.2
  all_goals simp [hp] at hn

/-- A step that neither performs an instruction nor applies reset leaves the step counter. -/
theorem step_pc_of_performed_none {s t : State} (h : step s = .next t) (hr : nextEvent s ≠ .reset)
    (hp : performed s = none) : t.pc = s.pc := by
  obtain ⟨i, hi, -⟩ | ⟨-, hreset, -⟩ | ⟨-, op, -, rfl⟩ | ⟨-, -, -, rfl⟩ := step_next_cases h
  · simp [hp] at hi
  · exact absurd hreset hr
  · exact hostAccess_pc _ op
  · rfl

/-- START sets the step counter to 0, or leaves it where it is ignored (44 R138). -/
theorem effectOf_start_pc (s : State) : (effectOf .start s).pc = if s.busy then s.pc else 0#8 := by
  cases hb : s.busy with
  | true => rw [effectOf_start_busy hb]; rfl
  | false => rw [effectOf_start_idle hb]; rfl

/-- Settles O37: the step counter moves by the effect of the instruction performed, and by nothing else. -/
theorem controlTransferInFull : Obligations.ControlTransferInFull := by
  intro s t h hr
  refine ⟨step_pc_of_performed_none h hr, fun i hp hh hs => ?_, fun hp => ?_, fun hp => ?_⟩
  all_goals rw [step_eq_effectOf h hp]
  · exact (effectOf_pc_busy hh hs _).1
  · rw [effectOf_halt]
    exact ⟨rfl, rfl⟩
  · exact effectOf_start_pc _

end Sys2Proof.Laws
end

section
/-! The legal words of format U (30_encoding R74, 60_exceptions R154). -/
namespace Sys2Proof.Laws
open Sys2Proof.Machine

/-- The 149 legal words, by value (30_encoding R74). -/
abbrev LegalWord (n : Nat) : Prop :=
  n = 0x000 ∨ (0x090 ≤ n ∧ n ≤ 0x0CF) ∨ n = 0x100 ∨ (0x180 ≤ n ∧ n ≤ 0x1CF) ∨ n = 0x200 ∨ n = 0x280 ∨ n = 0x300

/-- The decoder's answer `r` to the word `u`: an instruction where `legal` holds, the refusal by name elsewhere. -/
abbrev AnswersWhere (legal : Prop) [Decidable legal] (u : MicroWord) (r : Except DecodeError Instr) : Prop :=
  if legal then ∃ i, r = .ok i else r = .error (.illegalMicroOp u)

/-- A word is its two fields, one above the other. -/
theorem microWord_fields (u : MicroWord) : microWord (opField u) (idxField u) = u :=
  BitVec.extractLsb'_append_extractLsb' (w := 3) (len := 7)

/-- The value of a word, from its fields. -/
theorem toNat_eq_fields (u : MicroWord) : u.toNat = 0x080 * (opField u).toNat + (idxField u).toNat := by
  rw [← toNat_microWord, microWord_fields]

/-- An arm of the decoder that tests the operand, where the test says that the word is legal. -/
theorem answersWhere_ite {legal test : Prop} [Decidable legal] [Decidable test] (h : legal ↔ test) (u : MicroWord)
    (i : Instr) : AnswersWhere legal u (if test then .ok i else .error (.illegalMicroOp u)) := by
  by_cases hl : legal
  · rw [AnswersWhere, if_pos hl, if_pos (h.1 hl)]
    exact ⟨i, rfl⟩
  · rw [AnswersWhere, if_neg hl, if_neg (mt h.2 hl)]

/-- An arm of the decoder for an opcode without operand, where the word is legal with `idx = 0` only (30_encoding R73). -/
theorem answersWhere_withoutOperand {u : MicroWord} {legal : Prop} [Decidable legal]
    (h : legal ↔ (idxField u).toNat = 0) (i : Instr) : AnswersWhere legal u (withoutOperand u i) :=
  answersWhere_ite (h.trans (BitVec.toNat_inj (y := 0))) u i

/-- The decoder answers exactly the legal words: opcode by opcode, the legal operands are those of 30_encoding R74. -/
theorem decode_answersWhere_legalWord (u : MicroWord) : AnswersWhere (LegalWord u.toNat) u (decode (.micro u)) := by
  have hu := toNat_eq_fields u
  have hop := (opField u).isLt
  have hidx := (idxField u).isLt
  unfold decode decodeMicro
  dsimp only
  split
  case h_1 | h_3 | h_5 | h_6 | h_7 => exact answersWhere_withoutOperand (by omega) _
  case h_2 | h_4 => exact answersWhere_ite (by omega) u _
  case h_8 =>
    simp only [imp_false] at *
    have hillegal : ¬LegalWord u.toNat := by omega
    rw [AnswersWhere, if_neg hillegal]

/-- An entry of `UROM` is a legal word (44 R136). -/
theorem legalWord_of_urom {p : Nat} {u : MicroWord} (h : urom p = some u) : LegalWord u.toNat := by
  unfold urom at h
  split_ifs at h
  all_goals
    obtain rfl := Option.some.inj h
    simp only [BitVec.toNat_ofNat]
    omega

/-- Settles O3: the decoder's arms accept exactly the legal operands, and every entry of `UROM` has a legal value. -/
theorem legalWordsAreExactlyTheTable : Obligations.LegalWordsAreExactlyTheTable := by
  refine ⟨decode_answersWhere_legalWord, fun p u h => ?_⟩
  have hdec := decode_answersWhere_legalWord u
  rwa [AnswersWhere, if_pos (legalWord_of_urom h)] at hdec

end Sys2Proof.Laws
end

section
/-! The decoder and the encoder are inverse (30_encoding R71, R72). -/
namespace Sys2Proof.Laws
open Sys2Proof.Machine Sys2Proof.Safety

/-- Settles O1: the decoder finds in an encoded instruction the opcode and the operand it was made of. -/
theorem decodeOfEncodeIsIdentity : Obligations.DecodeOfEncodeIsIdentity := fun _ => decode_encode

/-- The one value of `CTRL` that is a command is that of START (30_encoding R75). -/
theorem decode_ctrl_eq_ok {b : BitVec 1} {i : Instr} (h : decode (.ctrl b) = .ok i) : b = 1#1 ∧ i = .start := by
  simp only [decode, decodeCtrl] at h
  split at h
  · next hb => exact ⟨hb, (Except.ok.inj h).symm⟩
  · cases h

/-- A word is determined by its two fields. -/
theorem microWord_eq_of_fields {u : MicroWord} {op : BitVec 3} {idx : BitVec 7} (hop : (opField u).toNat = op.toNat)
    (hidx : idxField u = idx) : microWord op idx = u := by
  rw [← microWord_fields u, hidx, BitVec.eq_of_toNat_eq hop]

/-- What an opcode without operand decodes to, and with which operand (30_encoding R73). -/
theorem withoutOperand_eq_ok {u : MicroWord} {i j : Instr} (h : withoutOperand u i = .ok j) :
    idxField u = 0 ∧ j = i := by
  unfold withoutOperand at h
  split at h
  · next hidx => exact ⟨hidx, (Except.ok.inj h).symm⟩
  · cases h

/-- What an opcode with operand decodes to, and with which operand (30_encoding R73). -/
theorem operand_eq_ok {u : MicroWord} {i j : Instr} {test : Prop} [Decidable test]
    (h : (if test then .ok i else .error (.illegalMicroOp u) : Except DecodeError Instr) = .ok j) : test ∧ j = i := by
  split at h
  · next ht => exact ⟨ht, (Except.ok.inj h).symm⟩
  · cases h

/-- What a word decodes to has a legal operand and that word for its encoding: opcode by opcode. -/
theorem encode_of_decodeMicro {u : MicroWord} {i : Instr} (h : decodeMicro u = .ok i) :
    i.wf = true ∧ encode i = .micro u := by
  unfold decodeMicro at h
  split at h
  case h_1 hop | h_3 hop | h_5 hop | h_6 hop | h_7 hop =>
    obtain ⟨hidx, rfl⟩ := withoutOperand_eq_ok h
    exact ⟨rfl, congrArg Code.micro (microWord_eq_of_fields hop hidx)⟩
  case h_2 hop | h_4 hop =>
    obtain ⟨hidx, rfl⟩ := operand_eq_ok h
    exact ⟨decide_eq_true hidx, congrArg Code.micro (microWord_eq_of_fields hop rfl)⟩
  case h_8 => cases h

/-- Settles O2: over both formats, a code that decodes is the encoding of what it decodes to. -/
theorem encodeOfDecodeIsIdentity : Obligations.EncodeOfDecodeIsIdentity := by
  intro c i h
  cases c with
  | micro u => exact encode_of_decodeMicro h
  | ctrl b =>
    obtain ⟨rfl, rfl⟩ := decode_ctrl_eq_ok h
    exact ⟨rfl, rfl⟩

/-- Settles O4: each word is the encoding of its instruction. -/
theorem specWordsDecode : Obligations.SpecWordsDecode :=
  ⟨decode_encode (i := .asm) rfl, decode_encode (i := .exp 16#7) rfl, decode_encode (i := .exp 79#7) rfl,
    decode_encode (i := .init) rfl, decode_encode (i := .rnd 15#7) rfl, decode_encode (i := .rnd 79#7) rfl,
    decode_encode (i := .fin) rfl, decode_encode (i := .ser) rfl, decode_encode (i := .halt) rfl,
    decode_encode (i := .start) rfl⟩

end Sys2Proof.Laws
end

section
/-! SUPPORT. What host accesses and instructions leave of the state, field by field. -/
namespace Sys2Proof.Laws
open Sys2Proof.Machine Sys2Proof.Safety

/-- A host access that is no command reaches `M` and the host's record only (44 R139 to R143). -/
theorem hostAccess_eq (s : State) (op : HostOp) :
    s.hostAccess op = { s with m := (s.hostAccess op).m, replies := (s.hostAccess op).replies } := by
  cases op with
  | writeM k b => simp only [State.hostAccess, State.hostWriteM]; split <;> rfl
  | readStatus | readM k | readOut k | writeCtrl b | readCtrl | writeStatus v | writeOut k b => rfl

/-- No micro-operation but HALT touches a status bit (10_state R29). -/
theorem effectOf_done {i : Instr} (hh : i ≠ .halt) (hs : i ≠ .start) (s : State) : (effectOf i s).done = s.done := by
  cases i with
  | halt => exact absurd rfl hh
  | start => exact absurd rfl hs
  | asm | exp n | init | rnd r | fin | ser => simp [effectOf]

end Sys2Proof.Laws
end

section
/-! The sequencer's invariant: it holds at reset, every step keeps it, and no step from it stops (70 R176). -/
namespace Sys2Proof.Laws
open Sys2Proof.Machine Sys2Proof.Safety

/-- A call at its first micro-operation has nothing to have written yet. -/
theorem callProgress_of_pc_eq_zero {s : State} (h : s.pc = 0#8) : CallProgress s := by
  have hpc : s.pc.toNat = 0 := by rw [h]; rfl
  unfold CallProgress
  rw [hpc]
  exact ⟨fun j hj => absurd hj (Nat.not_lt_zero j), by omega, by omega, by omega⟩

/-- With `pc` at 0 and no result the invariant asks for nothing that is not there, a call running or not. -/
theorem sequencerInv_of_pc_eq_zero {s : State} (hpc : s.pc = 0#8) (hdone : s.done = false) : SequencerInv s :=
  ⟨by rw [hpc]; exact Nat.zero_le _, by simp [hdone], fun _ => callProgress_of_pc_eq_zero hpc, by simp [hdone]⟩

/-- Settles O32: at reset `pc` is 0 and there is no result. -/
theorem resetHasSequencerInv : Obligations.ResetHasSequencerInv := sequencerInv_of_pc_eq_zero rfl rfl

/-- START keeps the invariant: a call begins at 0, or the running one goes on. -/
theorem sequencerInv_start {s : State} (h : SequencerInv s) : SequencerInv (effectOf .start s) := by
  cases hb : s.busy with
  | true => rwa [effectOf_start_busy hb]
  | false =>
    rw [effectOf_start_idle hb]
    exact sequencerInv_of_pc_eq_zero rfl rfl

/-- The micro-operation fetched in a running call keeps the invariant: before HALT the call makes progress, and HALT
finds all of `OUT` written. -/
theorem sequencerInv_turn {s : State} {i : Instr} (h : SequencerInv s) (hb : s.busy = true) (hf : s.fetched = .ok i) :
    SequencerInv (effectOf i s) := by
  obtain ⟨hpc, hstatus, hprogress, hresult⟩ := h
  by_cases h148 : s.pc.toNat = 148
  · obtain ⟨-, -, -, hout⟩ := hprogress hb
    rw [(fetched_eq_halt_iff hf).2 h148, effectOf_halt]
    exact ⟨hpc, by simp, by simp, fun _ => hout h148.ge⟩
  · have hdone := effectOf_done (mt (fetched_eq_halt_iff hf).1 h148) (wf_of_fetched hf).2 s
    obtain ⟨hpc', hbusy⟩ := effectOf_fetched_next hf h148
    have hd : s.done = false := Bool.eq_false_of_not_eq_true fun hd => hstatus ⟨hb, hd⟩
    exact ⟨by omega, by rwa [hbusy, hdone], fun _ => callProgress_effectOf hf h148 (hprogress hb),
      fun hd' => by simp [hdone, hd] at hd'⟩

/-- Settles O31: the invariant is kept by whatever a step can do. Host accesses reach nothing that it speaks of. -/
theorem stepKeepsSequencerInv : Obligations.StepKeepsSequencerInv := by
  intro s t hinv h
  have hinv' : SequencerInv (afterEvent s) := hinv
  obtain ⟨i, -, -, hexec, hi⟩ | ⟨-, -, rfl⟩ | ⟨-, op, -, rfl⟩ | ⟨-, -, -, rfl⟩ := step_next_cases h
  · obtain ⟨-, -, rfl⟩ := (exec_next_iff _ _ _).1 hexec
    obtain rfl | ⟨-, hb, hf⟩ := hi
    · exact sequencerInv_start hinv'
    · exact sequencerInv_turn hinv' hb hf
  · exact sequencerInv_of_pc_eq_zero rfl rfl
  · rw [hostAccess_eq]
    exact hinv'
  · exact hinv'

/-- A host operation is always answered (60 R153: a refused read does not stop the machine). -/
theorem hostTurn_next (op : HostOp) (s : State) : ∃ t, hostTurn op s = .next t := by
  cases op with
  | writeCtrl b =>
    change ∃ t, ctrlWrite b s = .next t
    unfold ctrlWrite
    cases hd : decode (.ctrl b) with
    | error e => exact ⟨s, rfl⟩
    | ok i =>
      obtain ⟨-, rfl⟩ := decode_ctrl_eq_ok hd
      exact ⟨_, exec_start s⟩
  | readStatus | writeM k b | readM k | readOut k | readCtrl | writeStatus v | writeOut k b => exact ⟨_, rfl⟩

/-- A turn of the sequencer from the invariant does not stop: what it reads is written. -/
theorem sequencerTurn_next {s : State} (h : SequencerInv s) (hm : s.busy = true → s.pc = 0#8 → MLoaded s) :
    ∃ t, sequencerTurn s = .next t := by
  obtain ⟨hpc, -, hprogress, -⟩ := h
  unfold sequencerTurn
  cases hb : s.busy with
  | false => exact ⟨s, rfl⟩
  | true =>
    obtain ⟨i, hi⟩ := fetched_of_le hpc
    have hread : ReadsWritten i s :=
      readsWritten_of_callProgress hi (hprogress hb) fun h0 => hm hb (BitVec.eq_of_toNat_eq h0)
    rw [if_pos rfl, hi]
    exact ⟨_, exec_of_readsWritten (wf_of_fetched hi).1 hread⟩

/-- Settles O33: only the sequencer's turn could stop, and from the invariant it does not. -/
theorem writtenBeforeRead : Obligations.WrittenBeforeRead := by
  intro s hinv hm
  rw [step_eq_perform]
  cases nextEvent s with
  | host op => exact hostTurn_next op _
  | sequencer => exact sequencerTurn_next (s := afterEvent s) hinv hm
  | reset => exact ⟨_, rfl⟩

end Sys2Proof.Laws
end

section
/-! What changes the status bits, `M`, and the treatment of unwritten reads, over every step. -/
namespace Sys2Proof.Laws
open Sys2Proof.Machine Sys2Proof.Safety

/-- What a step can do to the status bits: HALT, a START that is not ignored and reset set both; nothing else changes
either (44 R137, R138, 70 R170). -/
theorem status_of_step {s t : State} (h : step s = .next t) :
    (performed s = some .halt ∧ t.busy = false ∧ t.done = true) ∨
    (performed s = some .start ∧ t.busy = true ∧ t.done = false) ∨
    (nextEvent s = .reset ∧ t.busy = false ∧ t.done = false) ∨ (t.busy = s.busy ∧ t.done = s.done) := by
  obtain ⟨i, hi, -⟩ | ⟨-, hreset, rfl⟩ | ⟨-, op, -, rfl⟩ | ⟨-, -, -, rfl⟩ := step_next_cases h
  · rw [step_eq_effectOf h hi]
    by_cases hh : i = .halt
    · subst hh
      rw [effectOf_halt]
      exact .inl ⟨hi, rfl, rfl⟩
    by_cases hs : i = .start
    · subst hs
      cases hb : (afterEvent s).busy with
      | true => rw [effectOf_start_busy hb]; exact .inr (.inr (.inr ⟨rfl, rfl⟩))
      | false => rw [effectOf_start_idle hb]; exact .inr (.inl ⟨hi, rfl, rfl⟩)
    · exact .inr (.inr (.inr ⟨(effectOf_pc_busy hh hs _).2, effectOf_done hh hs _⟩))
  · exact .inr (.inr (.inl ⟨hreset, rfl, rfl⟩))
  · rw [hostAccess_eq]
    exact .inr (.inr (.inr ⟨rfl, rfl⟩))
  · exact .inr (.inr (.inr ⟨rfl, rfl⟩))

/-- Settles O36: in each of the four changes all but the stated causes leave the bit otherwise. -/
theorem statusChangesOnlyByStartHaltReset : Obligations.StatusChangesOnlyByStartHaltReset := by
  intro s t h
  obtain ⟨hp, hb, hd⟩ | ⟨hp, hb, hd⟩ | ⟨hr, hb, hd⟩ | ⟨hb, hd⟩ := status_of_step h
  · simp [hp, hb, hd]
  · simp [hp, hb, hd]
  · simp [hr, hb, hd]
  · simp +contextual [hb, hd]

/-- Of the host's accesses only an idle `HostWriteM` changes `M` (44 R140). -/
theorem hostAccess_m (s : State) (op : HostOp) :
    (s.hostAccess op).m = s.m ∨
      (s.busy = false ∧ ∃ k b, op = .writeM k b ∧ (s.hostAccess op).m = s.m.write k.val b) := by
  cases op with
  | writeM k b =>
    cases hb : s.busy with
    | true => exact .inl (by rw [State.hostAccess, hostWriteM_of_busy hb])
    | false => exact .inr ⟨rfl, k, b, rfl, by rw [State.hostAccess, hostWriteM_of_idle (by simp [hb])]⟩
  | readStatus | readM k | readOut k | writeCtrl b | readCtrl | writeStatus v | writeOut k b => exact .inl rfl

/-- What a step can do to `M`: reset empties it, an idle host write stores one byte, nothing else touches it
(20_memory R50). -/
theorem m_of_step {s t : State} (h : step s = .next t) :
    t.m = s.m ∨ nextEvent s = .reset ∨
      (s.busy = false ∧ ∃ k b, nextEvent s = .host (.writeM k b) ∧ t.m = s.m.write k.val b) := by
  obtain ⟨i, hi, -⟩ | ⟨-, hreset, -⟩ | ⟨-, op, hop, rfl⟩ | ⟨-, -, -, rfl⟩ := step_next_cases h
  · rw [step_eq_effectOf h hi, effectOf_m]
    exact .inl rfl
  · exact .inr (.inl hreset)
  · obtain hm | ⟨hb, k, b, rfl, hm⟩ := hostAccess_m (afterEvent s) op
    · exact .inl hm
    · exact .inr (.inr ⟨hb, k, b, hop, hm⟩)
  · exact .inl rfl

/-- Settles O38: the byte stored by an idle host write is at the address named; every other one reads as before. -/
theorem messageSpaceChangesOnlyByTheIdleHost : Obligations.MessageSpaceChangesOnlyByTheIdleHost := by
  intro s t h k hk
  obtain hm | hreset | ⟨hb, j, b, hev, hm⟩ := m_of_step h
  · rw [hm] at hk
    exact absurd rfl hk
  · exact .inl hreset
  · refine .inr ⟨hb, j, b, ?_, hev⟩
    rw [hm, Memory.read?_write] at hk
    by_contra hjk
    rw [if_neg hjk] at hk
    exact hk rfl

/-- No instruction touches the treatment of unwritten reads or what the host got back (logs 2 and 8). -/
theorem effectOf_outside (i : Instr) (s : State) :
    (effectOf i s).unwrittenReads = s.unwrittenReads ∧ (effectOf i s).replies = s.replies := by
  cases i with
  | start =>
    cases hb : s.busy with
    | true => rw [effectOf_start_busy hb]; exact ⟨rfl, rfl⟩
    | false => rw [effectOf_start_idle hb]; exact ⟨rfl, rfl⟩
  | asm => rw [effectOf_asm]; exact ⟨rfl, rfl⟩
  | exp n | init | rnd r | fin | ser | halt => simp [effectOf]

/-- No instruction touches the treatment of unwritten reads (log 2). -/
@[simp] theorem effectOf_unwrittenReads (i : Instr) (s : State) :
    (effectOf i s).unwrittenReads = s.unwrittenReads := (effectOf_outside i s).1

/-- Settles O40: neither instructions nor reset nor host accesses touch the field. -/
theorem treatmentOfUnwrittenReadsIsConstant : Obligations.TreatmentOfUnwrittenReadsIsConstant := by
  intro s t h
  obtain ⟨i, hi, -⟩ | ⟨-, -, rfl⟩ | ⟨-, op, -, rfl⟩ | ⟨-, -, -, rfl⟩ := step_next_cases h
  · rw [step_eq_effectOf h hi]
    exact effectOf_unwrittenReads i _
  · rfl
  · rw [hostAccess_eq]
    rfl
  · rfl

/-- What a host's turn can do besides START: it is a host access that is no command. -/
theorem hostAccess_or_start_of_step {s t : State} (h : step s = .next t) (hr : nextEvent s ≠ .reset)
    (hs : nextEvent s ≠ .sequencer) :
    (performed s = some .start ∧ t = effectOf .start (afterEvent s)) ∨
      ∃ op, t = (afterEvent s).hostAccess op := by
  obtain ⟨i, hi, -, -, rfl | ⟨hseq, -⟩⟩ | ⟨-, hreset, -⟩ | ⟨-, op, -, ht⟩ | ⟨-, hseq, -⟩ := step_next_cases h
  · exact .inl ⟨hi, step_eq_effectOf h hi⟩
  · exact absurd hseq hs
  · exact absurd hreset hr
  · exact .inr ⟨op, ht⟩
  · exact absurd hseq hs

/-- START writes no element: what is written after it was written before, with the same value (44 R138). -/
theorem written_effectOf_start (s : State) (i : Nat) :
    (((effectOf .start s).wElem i).written = true → (effectOf .start s).wElem i = s.wElem i) ∧
    (((effectOf .start s).xElem i).written = true → (effectOf .start s).xElem i = s.xElem i) ∧
    (((effectOf .start s).hvElem i).written = true → (effectOf .start s).hvElem i = s.hvElem i) ∧
    (∀ b, (effectOf .start s).out.read? i = some b → s.out.read? i = some b) := by
  cases hb : s.busy with
  | true =>
    rw [effectOf_start_busy hb]
    exact ⟨fun _ => rfl, fun _ => rfl, fun _ => rfl, fun _ h => h⟩
  | false =>
    obtain ⟨-, -, -, hw, hx, hhv, hout, -⟩ := startEffect_effectOf hb
    exact ⟨fun h => absurd h (Bool.eq_false_iff.1 (hw i)), fun h => absurd h (Bool.eq_false_iff.1 (hx i)),
      fun h => absurd h (Bool.eq_false_iff.1 (hhv i)), fun b h => by simpa [State.isWritten, h] using hout i⟩

/-- Settles O39: a host access reaches nothing that computing reaches, and START writes no element. -/
theorem onlyTheSequencerComputes : Obligations.OnlyTheSequencerComputes := by
  intro s t h hr hs
  obtain ⟨hp, rfl⟩ | ⟨op, rfl⟩ := hostAccess_or_start_of_step h hr hs
  · exact ⟨fun hn => absurd hp hn, written_effectOf_start (afterEvent s)⟩
  · rw [hostAccess_eq]
    exact ⟨fun _ => ⟨rfl, rfl, rfl, fun _ => rfl, rfl⟩,
      fun _ => ⟨fun _ => rfl, fun _ => rfl, fun _ => rfl, fun _ hb => hb⟩⟩

end Sys2Proof.Laws
end

section
/-! Reset (10_state R36, 70 R170). -/
namespace Sys2Proof.Laws
open Sys2Proof.Machine Sys2Proof.Safety

/-- After reset no element is marked written (10_state R36). -/
theorem isWritten_applyReset (s : State) (e : Element) : s.applyReset.isWritten e = false := by
  have unset : Marked.unset.written = false := rfl
  cases e with
  | m k | out k => rfl
  | w i => rw [State.isWritten, State.wElem_applyReset, unset]
  | x i => rw [State.isWritten, State.xElem_applyReset, unset]
  | hv i => rw [State.isWritten, State.hvElem_applyReset, unset]

/-- Settles O29: the machine at reset is its own reset. -/
theorem resetStateIsAsTheSpecSays : Obligations.ResetStateIsAsTheSpecSays :=
  ⟨rfl, rfl, rfl, isWritten_applyReset State.reset⟩

/-- While the sequencer is idle and nothing is to come, a step changes nothing (44 R135). -/
theorem step_of_idle {s : State} (hb : s.busy = false) (ha : s.agenda = []) : step s = .next s := by
  simp [step, nextTurn, ha, sequencerTurn, hb]

/-- Settles O30: the step is the block's reset, which leaves the sequencer idle. -/
theorem resetEventAbandonsTheCall : Obligations.ResetEventAbandonsTheCall := fun _ _ h =>
  ⟨_, step_of_agenda h, rfl, rfl, rfl, isWritten_applyReset _, rfl, fun hrest => step_of_idle rfl hrest⟩

/-- Settles O8: the sequencer's turn, listed or not, finds `BUSY = 0`. -/
theorem idleSequencerChangesNothing : Obligations.IdleSequencerChangesNothing := fun s hb =>
  ⟨step_of_idle hb, fun rest ha => (step_of_agenda ha).trans (if_neg (by simp [hb]))⟩

end Sys2Proof.Laws
end

section
/-! The canonical form of the data (logs 1, 3 and 4). -/
namespace Sys2Proof.Laws
open Sys2Proof.Machine Sys2Proof.Safety

theorem unwrittenFixed_unset : UnwrittenFixed Marked.unset := fun _ => rfl

theorem unwrittenFixed_written (v : Word) : UnwrittenFixed ⟨v, true⟩ := nofun

/-- Empty spaces and cleared registers are in canonical form. -/
theorem memoriesCanonical_applyReset (s : State) : MemoriesCanonical s.applyReset := by
  obtain ⟨hm, hout⟩ := Memory.wf_reset
  refine ⟨hm, hout, fun i => ?_⟩
  rw [State.wElem_applyReset, State.xElem_applyReset, State.hvElem_applyReset]
  exact ⟨unwrittenFixed_unset, unwrittenFixed_unset, unwrittenFixed_unset⟩

/-- Settles O35: the machine at reset is its own reset. -/
theorem resetHasMemoriesCanonical : Obligations.ResetHasMemoriesCanonical := memoriesCanonical_applyReset State.reset

/-- The elements that an eight-word write leaves are in canonical form, inside the file and outside. -/
theorem unwrittenFixed_ite (i : Nat) (v : Word) : UnwrittenFixed (if i < 8 then ⟨v, true⟩ else Marked.unset) := by
  split
  · exact unwrittenFixed_written v
  · exact unwrittenFixed_unset

/-- Every instruction keeps the canonical form: what it writes it marks written, and START clears whole files. -/
theorem memoriesCanonical_effectOf {s : State} (h : MemoriesCanonical s) (i : Instr) :
    MemoriesCanonical (effectOf i s) := by
  obtain ⟨hm, hout, hfiles⟩ := h
  cases i with
  | asm =>
    refine ⟨by rwa [effectOf_m], by simpa [effectOf] using hout, fun j => ?_⟩
    obtain ⟨hw, hx, hhv⟩ := hfiles j
    refine ⟨?_, by simpa [effectOf] using hx, by simpa [effectOf] using hhv⟩
    rw [effectOf, State.wElem_advance, State.wElem_assembleBlock]
    split_ifs
    case neg => exact hw
    all_goals exact unwrittenFixed_written _
  | exp n =>
    refine ⟨hm, hout, fun j => ?_⟩
    obtain ⟨hw, hx, hhv⟩ := hfiles j
    refine ⟨?_, hx, hhv⟩
    rw [effectOf, State.wElem_advance, State.wElem_writeW]
    split
    · exact unwrittenFixed_written _
    · exact hw
  | init | rnd r =>
    refine ⟨hm, hout, fun j => ?_⟩
    obtain ⟨hw, -, hhv⟩ := hfiles j
    refine ⟨hw, ?_, hhv⟩
    rw [effectOf, State.xElem_advance, State.xElem_writeX]
    exact unwrittenFixed_ite j _
  | fin =>
    refine ⟨hm, hout, fun j => ?_⟩
    obtain ⟨hw, hx, -⟩ := hfiles j
    refine ⟨hw, hx, ?_⟩
    rw [effectOf, State.hvElem_advance, State.hvElem_writeHv]
    exact unwrittenFixed_ite j _
  | ser =>
    have hm' : Memory.wf 96 (effectOf .ser s).m := by rwa [effectOf_m]
    have hout' : Memory.wf 64 (effectOf .ser s).out := by
      rw [effectOf, State.advance_out, State.writeOut_out]
      exact Memory.wf_serialize hout _
    refine ⟨hm', hout', fun j => ?_⟩
    simp only [effectOf, State.wElem_advance, State.wElem_writeOut, State.xElem_advance, State.xElem_writeOut,
      State.hvElem_advance, State.hvElem_writeOut]
    exact hfiles j
  | halt => exact ⟨hm, hout, hfiles⟩
  | start =>
    cases hb : s.busy with
    | true => rw [effectOf_start_busy hb]; exact ⟨hm, hout, hfiles⟩
    | false =>
      obtain ⟨-, hout', hfiles'⟩ := memoriesCanonical_applyReset s
      rw [effectOf_start_idle hb]
      exact ⟨hm, hout', hfiles'⟩

/-- A host access keeps the canonical form: an idle `HostWriteM` stores below 96. -/
theorem memoriesCanonical_hostAccess {s : State} (h : MemoriesCanonical s) (op : HostOp) :
    MemoriesCanonical (s.hostAccess op) := by
  obtain ⟨hm, hout, hfiles⟩ := h
  have hm' : Memory.wf 96 (s.hostAccess op).m := by
    obtain heq | ⟨-, k, b, -, heq⟩ := hostAccess_m s op
    · rwa [heq]
    · rw [heq]
      exact Memory.wf_write hm k.isLt b
  rw [hostAccess_eq]
  exact ⟨hm', hout, hfiles⟩

/-- Settles O34: instructions, reset and host accesses each keep the canonical form. -/
theorem stepKeepsMemoriesCanonical : Obligations.StepKeepsMemoriesCanonical := by
  intro s t hs h
  have hs' : MemoriesCanonical (afterEvent s) := hs
  obtain ⟨i, hi, -⟩ | ⟨-, -, rfl⟩ | ⟨-, op, -, rfl⟩ | ⟨-, -, -, rfl⟩ := step_next_cases h
  · rw [step_eq_effectOf h hi]
    exact memoriesCanonical_effectOf hs' i
  · exact memoriesCanonical_applyReset _
  · exact memoriesCanonical_hostAccess hs' op
  · exact hs'

end Sys2Proof.Laws
end

section
/-! The instruction a step runs, and the placing of an instruction where the step finds it (44 R135, R138; log 9). -/
namespace Sys2Proof.Laws
open Sys2Proof.Machine Sys2Proof.Safety

theorem fetched_of_urom {s : State} {u : MicroWord} {i : Instr} (hu : urom s.pc.toNat = some u)
    (hd : decode (.micro u) = .ok i) : s.fetched = .ok i := by
  simp only [State.fetched, hu, hd]

theorem sequencerTurn_of_fetched {s : State} {i : Instr} (hb : s.busy = true) (hf : s.fetched = .ok i) :
    sequencerTurn s = exec i s := by
  simp only [sequencerTurn, hb, if_true, hf]

/-- Settles O6: the event is the sequencer's turn, listed or not, or the host's write to `CTRL`. -/
theorem stepRunsTheDecodedInstruction : Obligations.StepRunsTheDecodedInstruction := by
  refine ⟨fun s u i rest hb hu hd ha => ?_, fun s b i rest hd ha => ?_⟩
  · have hturn : sequencerTurn { s with agenda := rest } = exec i { s with agenda := rest } :=
      sequencerTurn_of_fetched hb (fetched_of_urom hu hd)
    obtain ⟨ha, rfl⟩ | ha := ha
    · rw [step_eq_perform, nextEvent, afterEvent, ha]
      exact hturn
    · exact (step_of_agenda ha).trans hturn
  · rw [step_of_agenda ha]
    simp only [perform, hostTurn, ctrlWrite, hd]

/-- A table word of two bytes that decodes is a micro-operation's word, and a well-formed instruction's encoding. -/
theorem decodeTableWord_16 {w : Nat} {i : Instr} (h : decodeTableWord 16 w = some i) :
    ∃ u, tableCode 16 w = some (.micro u) ∧ decode (.micro u) = .ok i := by
  unfold decodeTableWord at h
  have hcode : tableCode 16 w = if w < 1024 then some (.micro (BitVec.ofNat 10 w)) else none := rfl
  by_cases hw : w < 1024
  · rw [if_pos hw] at hcode
    rw [hcode] at h
    refine ⟨_, hcode, ?_⟩
    cases hd : decode (.micro (BitVec.ofNat 10 w)) with
    | ok j => simp only [hd, Option.some.injEq] at h; rw [h]
    | error e => simp [hd] at h
  · rw [if_neg hw] at hcode
    simp [hcode] at h

/-- Selecting a word that decodes sets the sequencer where `UROM` holds it. -/
theorem selectCode_of_decode {u : MicroWord} {i : Instr} (hd : decode (.micro u) = .ok i) (s : State) :
    ∃ p, p ≤ 148 ∧ urom p = some u ∧
      s.selectCode (.micro u) =
        { s with pc := BitVec.ofNat 8 p, busy := true, agenda := .sequencer :: s.agenda } := by
  obtain ⟨hwf, henc⟩ := encodeOfDecodeIsIdentity _ _ hd
  obtain rfl | ⟨p, hp, hlt, -⟩ := uromPlace i hwf
  · cases henc
  · exact ⟨p, by omega, (urom_uromAddress hwf hp henc).1, by simp only [State.selectCode, hd, hp]⟩

/-- Settles O7: the placed turn is the next event, and the sequencer finds the instruction at its place. -/
theorem placedInstructionRunsNext : Obligations.PlacedInstructionRunsNext := by
  obtain ⟨hturn, hctrl⟩ := stepRunsTheDecodedInstruction
  refine ⟨fun s w i h => ?_, fun s => hctrl _ 1#1 .start s.agenda rfl rfl⟩
  obtain ⟨u, hcode, hd⟩ := decodeTableWord_16 h
  obtain ⟨p, hp, hu, hsel⟩ := selectCode_of_decode hd s
  have hpc : (BitVec.ofNat 8 p).toNat = p := Nat.mod_eq_of_lt (show p < 2 ^ 8 by omega)
  refine ⟨p, hp, ⟨u, hu, hd⟩, ?_⟩
  have hplaced : s.withFetchWord 16 w = s.selectCode (.micro u) := by simp only [State.withFetchWord, hcode]
  rw [hplaced, hsel]
  exact hturn _ u i s.agenda rfl ((congrArg urom hpc).trans hu) hd (.inr rfl)

end Sys2Proof.Laws
end

section
/-! Which states an instruction stops in, and which it runs in (60 R153, R154; 70 R172; logs 2 and 7). -/
namespace Sys2Proof.Laws
open Sys2Proof.Machine Sys2Proof.Safety

/-- Settles O18: among the elements read there is one that may not be read, and the first of them is named. -/
theorem unwrittenReadFaultsByName : Obligations.UnwrittenReadFaultsByName := by
  intro s i hwf hcase hunwritten
  have may : ∀ e, Reads i e → s.mayRead e = s.isWritten e := fun e he => by
    have hiff := mayRead_of_reads he s
    have hno : ¬(s.unwrittenReads = .held ∧ i ≠ .asm) := by
      rintro ⟨hheld, hasm⟩
      simp [hheld, hasm] at hcase
    simpa only [hno, false_or, ← Bool.eq_iff_iff] using hiff
  simp only [ReadsWritten, not_forall, Bool.not_eq_true] at hunwritten
  obtain ⟨e, he, hw⟩ := hunwritten
  obtain ⟨e', he', hmay, hfault⟩ :=
    afterReads_fault (t := effectOf i s) ((mem_readsList i e).2 he) ((may e he).trans hw)
  rw [mem_readsList] at he'
  exact ⟨e', he', (may e' he').symm.trans hmay, (exec_of_wf hwf s).trans hfault⟩

/-- Settles O19: the two instructions that can be ill formed refuse their operand by name. -/
theorem illegalOperandFaults : Obligations.IllegalOperandFaults := fun s _ h => exec_of_not_wf h s

/-- Under the `held` treatment every well-formed instruction but ASM runs in every state (10_state R34). -/
theorem exec_of_held {s : State} (hheld : s.unwrittenReads = .held) {i : Instr} (hwf : i.wf = true) (hi : i ≠ .asm) :
    exec i s = .next (effectOf i s) :=
  (exec_next_iff _ _ _).2 ⟨hwf, .inl ⟨hheld, hi⟩, rfl⟩

/-- ASM in a state in which the host has not written all of `M` (70 R172). -/
theorem exec_asm_of_not_mLoaded {s : State} (h : ¬MLoaded s) :
    ∃ k < 96, s.m.read? k = none ∧ exec .asm s = .fault (.unwrittenRead (.m k)) := by
  have hunwritten : ¬ReadsWritten .asm s := fun hr => h fun k hk => hr (.m k) ⟨k, hk, rfl⟩
  obtain ⟨_, ⟨k, hk, rfl⟩, hw, hfault⟩ := unwrittenReadFaultsByName s .asm rfl (.inl rfl) hunwritten
  exact ⟨k, hk, by simpa [State.isWritten] using hw, hfault⟩

/-- Settles O17: the effects are those of the rules, on whatever the registers hold. -/
theorem heldTreatmentAlwaysRuns : Obligations.HeldTreatmentAlwaysRuns := fun s hheld =>
  ⟨fun hm => ⟨_, exec_of_readsWritten rfl (readsWritten_asm hm), asmEffect_effectOf fun _ _ => rfl⟩,
    exec_asm_of_not_mLoaded,
    fun _ h16 h79 => ⟨_, exec_of_held hheld (decide_eq_true ⟨h16, h79⟩) nofun, expEffect_effectOf h79 s⟩,
    fun r hr => ⟨_, exec_of_held hheld (decide_eq_true hr) nofun, rndEffect_effectOf r s⟩,
    ⟨_, exec_of_held hheld rfl nofun, finEffect_effectOf s⟩,
    ⟨_, exec_of_held hheld rfl nofun, serEffect_effectOf s⟩⟩

end Sys2Proof.Laws
end

section
/-! What each instruction leaves unchanged, from what its effect is. -/
namespace Sys2Proof.Laws
open Sys2Proof.Machine Sys2Proof.Safety

theorem sameBytes_refl (o : Memory) : SameBytes o o := fun _ => rfl

/-- What is left by an instruction that changes `W` and the step counter only. -/
theorem frame_of_w {s t : State} (h : t = { s with w := t.w, pc := s.pc + 1#8 }) :
    t.x = s.x ∧ t.hv = s.hv ∧ t.busy = s.busy ∧ t.done = s.done ∧ t.unwrittenReads = s.unwrittenReads ∧
      t.agenda = s.agenda ∧ t.replies = s.replies ∧ SameBytes t.m s.m ∧ SameBytes t.out s.out := by
  rw [h]
  exact ⟨rfl, rfl, rfl, rfl, rfl, rfl, rfl, sameBytes_refl _, sameBytes_refl _⟩

/-- Settles O20: the effects of ASM and EXP say which words of `W` they leave. -/
theorem frameOfAsmAndExp : Obligations.FrameOfAsmAndExp := by
  intro s t i hi h
  obtain ⟨hwf, -, rfl⟩ := (exec_next_iff _ _ _).1 h
  obtain rfl | ⟨n, rfl⟩ := hi
  · obtain ⟨-, -, -, -, -, hw, ht⟩ := asmEffect_effectOf (s := s) (b := s.mByte) fun _ _ => rfl
    refine ⟨?_, frame_of_w ht⟩
    rintro j (⟨-, hj⟩ | ⟨n, hn, -⟩)
    · exact hw j hj
    · cases hn
  · obtain ⟨-, hn79⟩ : expIndexOk n := of_decide_eq_true hwf
    obtain ⟨-, hw, ht⟩ := expEffect_effectOf hn79 s
    refine ⟨?_, frame_of_w ht⟩
    rintro j (⟨hn, -⟩ | ⟨m, hm, hj⟩)
    · cases hn
    · cases hm
      exact hw j hj

/-- Settles O21: the effects of INIT and RND are on `x`, that of FIN is on `HV`. -/
theorem frameOfInitRndAndFin : Obligations.FrameOfInitRndAndFin := by
  intro s t i hi h
  obtain ⟨-, -, rfl⟩ := (exec_next_iff _ _ _).1 h
  obtain rfl | ⟨r, rfl⟩ | rfl := hi
  · rw [effectOf_init]
    exact ⟨rfl, nofun, fun _ => rfl, rfl, rfl, rfl, rfl, rfl, sameBytes_refl _, sameBytes_refl _⟩
  · rw [effectOf_rnd]
    exact ⟨rfl, nofun, fun _ => rfl, rfl, rfl, rfl, rfl, rfl, sameBytes_refl _, sameBytes_refl _⟩
  · rw [effectOf_fin]
    exact ⟨rfl, fun _ => rfl, fun hne => absurd rfl hne, rfl, rfl, rfl, rfl, rfl, sameBytes_refl _, sameBytes_refl _⟩

/-- What is left by an instruction with the effect of SER: every address below 64 is an 8i + k. -/
theorem frame_of_serEffect {s t : State} (h : SerEffect s t) :
    t.w = s.w ∧ t.x = s.x ∧ t.hv = s.hv ∧ t.busy = s.busy ∧ t.done = s.done ∧
      t.unwrittenReads = s.unwrittenReads ∧ t.agenda = s.agenda ∧ t.replies = s.replies ∧ SameBytes t.m s.m ∧
      (∀ a, (∀ i < 8, ∀ k < 8, a ≠ 8 * i + k) → t.out.read? a = s.out.read? a) := by
  obtain ⟨-, hout, ht⟩ := h
  have hout' : ∀ a, (∀ i < 8, ∀ k < 8, a ≠ 8 * i + k) → t.out.read? a = s.out.read? a := fun a ha =>
    hout a (Nat.le_of_not_lt fun hlt => ha (a / 8) (by omega) (a % 8) (by omega) (by omega))
  rw [ht]
  exact ⟨rfl, rfl, rfl, rfl, rfl, rfl, rfl, rfl, sameBytes_refl _, hout'⟩

/-- Settles O22: the effect of SER says which addresses of `OUT` it leaves. -/
theorem frameOfSer : Obligations.FrameOfSer := by
  intro s t h
  obtain ⟨-, -, rfl⟩ := (exec_next_iff _ _ _).1 h
  exact frame_of_serEffect (serEffect_effectOf s)

/-- Settles O23: HALT sets the two status bits, and START clears nothing of `M`. -/
theorem frameOfHaltAndStart : Obligations.FrameOfHaltAndStart := by
  intro s t i hi h
  obtain ⟨-, -, rfl⟩ := (exec_next_iff _ _ _).1 h
  obtain rfl | rfl := hi
  · rw [effectOf_halt]
    exact ⟨sameBytes_refl _, rfl, rfl, rfl, fun _ => ⟨rfl, rfl, rfl, rfl, sameBytes_refl _⟩⟩
  · cases hb : s.busy with
    | true => rw [effectOf_start_busy hb]; exact ⟨sameBytes_refl _, rfl, rfl, rfl, nofun⟩
    | false => rw [effectOf_start_idle hb]; exact ⟨sameBytes_refl _, rfl, rfl, rfl, nofun⟩

end Sys2Proof.Laws
end

section
/-! The host's reads of `M` and `OUT`, and its accesses without effect (44 R141 to R143; log 11). -/
namespace Sys2Proof.Laws
open Sys2Proof.Machine Sys2Proof.Safety

/-- The step of a host's read of `M` records what the read gives. -/
theorem step_of_readM {s : State} {rest : List Event} {k : Fin 96} (h : s.agenda = .host (.readM k) :: rest) :
    step s = .next { s with agenda := rest, replies := s.hostReadM k :: s.replies } := step_of_agenda h

/-- The step of a host's read of `OUT` records what the read gives. -/
theorem step_of_readOut {s : State} {rest : List Event} {k : Fin 64} (h : s.agenda = .host (.readOut k) :: rest) :
    step s = .next { s with agenda := rest, replies := s.hostReadOut k :: s.replies } := step_of_agenda h

theorem hostReadM_of_some {s : State} {k : Nat} {b : Byte} (h : s.m.read? k = some b) : s.hostReadM k = .byte b := by
  simp only [State.hostReadM, h]

theorem hostReadM_of_none {s : State} {k : Nat} (h : s.m.read? k = none) : s.hostReadM k = .refused (.m k) := by
  simp only [State.hostReadM, h]

theorem hostReadOut_of_some {s : State} {k : Nat} {b : Byte} (hd : s.done = true) (h : s.out.read? k = some b) :
    s.hostReadOut k = .byte b := by
  simp only [State.hostReadOut, hd, if_true, h]

theorem hostReadOut_refused {s : State} {k : Nat} (h : s.done = false ∨ s.out.read? k = none) :
    s.hostReadOut k = .refused (.out k) := by
  unfold State.hostReadOut
  obtain hd | hn := h
  · simp [hd]
  · simp [hn]

/-- Settles O26: what the read gives is the byte, or the refusal that names the element. -/
theorem hostReadMGivesTheByte : Obligations.HostReadMGivesTheByte := fun s rest k h =>
  ⟨fun b hb => by rw [step_of_readM h, hostReadM_of_some hb],
    fun hn => by rw [step_of_readM h, hostReadM_of_none hn]⟩

/-- Settles O27: in a state of the invariant with `DONE = 1` all of `OUT` is written. -/
theorem hostReadOutNeedsDone : Obligations.HostReadOutNeedsDone := by
  intro s rest k h
  rw [step_of_readOut h]
  refine ⟨fun b hd hb => by rw [hostReadOut_of_some hd hb], fun hinv hd => ?_,
    fun hn => by rw [hostReadOut_refused hn]⟩
  obtain ⟨-, -, -, hout⟩ := hinv
  obtain ⟨b, hb⟩ := Option.isSome_iff_exists.1 (hout hd k k.isLt)
  exact ⟨b, hb, by rw [hostReadOut_of_some hd hb]⟩

/-- Settles O28: none of these accesses is a command, and the read of `CTRL` records 0. -/
theorem otherHostAccessesHaveNoEffect : Obligations.OtherHostAccessesHaveNoEffect := by
  intro s rest op h
  refine ⟨?_, ?_⟩
  · rintro (rfl | ⟨v, rfl⟩ | ⟨k, b, rfl⟩)
    all_goals exact step_of_agenda h
  · rintro rfl
    exact step_of_agenda h

end Sys2Proof.Laws
end

section
/-! The course of a call (44 R147): which micro-operations its turns perform, and what all its states have in common. -/
namespace Sys2Proof.Laws
open Sys2Proof.Machine Sys2Proof.Safety

/-- A shorter run performs the first of a longer one's events. -/
theorem events_prefix {k n : Nat} (h : k ≤ n) (s : State) : events k s <+: events n s := by
  induction n, h using Nat.le_induction with
  | base => exact List.prefix_rfl
  | succ n _ ih =>
    obtain ⟨e, he⟩ := events_succ_eq_append n s
    rw [he]
    exact ih.trans (List.prefix_append _ _)

/-- A run of one step more begins with a step that does not stop. -/
theorem exists_of_runSteps_succ {n : Nat} {s t : State} (h : runSteps (n + 1) s = .next t) :
    ∃ u, step s = .next u ∧ runSteps n u = .next t := by
  cases hs : step s with
  | next u => exact ⟨u, rfl, (runSteps_succ hs n).symm.trans h⟩
  | fault f => simp [runSteps, hs] at h
  | refused r => simp [runSteps, hs] at h

theorem instrTrace_succ {s u : State} (h : step s = .next u) (n : Nat) :
    instrTrace (n + 1) s = (performed s).toList ++ instrTrace n u := by
  simp only [instrTrace, h]

theorem instrTrace_one (s : State) : instrTrace 1 s = (performed s).toList := by
  cases hs : step s <;> simp [instrTrace, hs]

/-- A run of one step more performs one instruction more, if its last step performs one. -/
theorem instrTrace_succ_last {n : Nat} {s t : State} (h : runSteps n s = .next t) :
    instrTrace (n + 1) s = instrTrace n s ++ (performed t).toList := by
  induction n generalizing s with
  | zero =>
    cases h
    exact instrTrace_one _
  | succ n ih =>
    obtain ⟨u, hs, hrun⟩ := exists_of_runSteps_succ h
    rw [instrTrace_succ hs, instrTrace_succ hs, ih hrun, List.append_assoc]

theorem length_sched : sched.length = 64 := by rw [sched, List.length_map, List.length_range]

theorem length_rounds (n : Nat) : (rounds n).length = n := by rw [rounds, List.length_map, List.length_range]

theorem length_coreProgram : coreProgram.length = 149 := by
  simp only [coreProgram, compress, final, List.length_cons, List.length_append, length_sched, length_rounds,
    List.length_nil]

/-- EXP i stands in `CORE` at i - 15. -/
theorem getElem?_coreProgram_exp {n : BitVec 7} (hn : expIndexOk n) : coreProgram[n.toNat - 15]? = some (.exp n) := by
  obtain ⟨h16, h79⟩ := hn
  have hplace : n.toNat - 15 = n.toNat - 16 + 1 := by omega
  have hidx : 16 + (n.toNat - 16) = n.toNat := by omega
  have hlt : n.toNat - 16 < sched.length := by rw [length_sched]; omega
  rw [coreProgram, hplace, List.getElem?_cons_succ, List.append_assoc, List.append_assoc,
    List.getElem?_append_left hlt, sched, List.getElem?_map, List.getElem?_range (by omega), Option.map_some, hidx,
    BitVec.ofNat_toNat, BitVec.setWidth_eq]

/-- RND r stands in `CORE` at 66 + r. -/
theorem getElem?_coreProgram_rnd {r : BitVec 7} (hr : rndIndexOk r) : coreProgram[66 + r.toNat]? = some (.rnd r) := by
  have hr : r.toNat < 80 := by omega
  have hplace : 66 + r.toNat = sched.length + (r.toNat + 1) + 1 := by rw [length_sched]; omega
  have hlt : r.toNat < (rounds 80).length := by rw [length_rounds]; omega
  rw [coreProgram, hplace, List.getElem?_cons_succ, List.append_assoc, List.append_assoc,
    List.getElem?_append_right (Nat.le_add_right _ _), Nat.add_sub_cancel_left, compress, List.cons_append,
    List.getElem?_cons_succ, List.getElem?_append_left hlt, rounds, List.getElem?_map, List.getElem?_range hr,
    Option.map_some, BitVec.ofNat_toNat, BitVec.setWidth_eq]
/-- `CORE` lists the micro-operations of `UROM` in order of address (30 R77). -/
theorem coreProgram_of_fetched {s : State} {i : Instr} (h : s.fetched = .ok i) : coreProgram[s.pc.toNat]? = some i := by
  obtain ⟨hp, rfl⟩ | ⟨n, hn, hp, rfl⟩ | ⟨hp, rfl⟩ | ⟨r, hr, hp, rfl⟩ | ⟨hp, rfl⟩ | ⟨hp, rfl⟩ | ⟨hp, rfl⟩ :=
    fetched_cases h
  all_goals rw [hp]
  · rfl
  · exact getElem?_coreProgram_exp hn
  · rfl
  · exact getElem?_coreProgram_rnd hr
  all_goals rfl

/-- In a running call a turn of the sequencer performs the next micro-operation of `CORE`, and no other event performs
anything but an ignored START. -/
theorem InCall.take_performed {s : State} (hc : InCall s) :
    coreProgram.take s.pc.toNat ++ (performed s).toList.filter (fun i => i != .start) =
      coreProgram.take (s.pc.toNat + [nextEvent s].count .sequencer) := by
  unfold performed
  cases nextEvent s with
  | reset => simp
  | sequencer =>
    obtain ⟨i, hi⟩ := fetched_of_le hc.pc_le
    obtain ⟨-, hne⟩ := wf_of_fetched hi
    rw [List.count_singleton_self, List.take_add_one, coreProgram_of_fetched hi]
    simp [hc.busy, hi, Except.toOption, hne]
  | host op =>
    have hnone : [Event.host op].count .sequencer = 0 := by simp
    rw [hnone]
    cases op with
    | writeCtrl b =>
      cases hd : decode (.ctrl b) with
      | error e => simp [Except.toOption, hd]
      | ok i =>
        obtain ⟨-, rfl⟩ := decode_ctrl_eq_ok hd
        simp [Except.toOption, hd]
    | readStatus | writeM k b | readM k | readOut k | readCtrl | writeStatus v | writeOut k b => simp

/-- Only the idle host and reset write `M` (20 R60). -/
theorem m_of_step_of_busy {s t : State} (h : step s = .next t) (hb : s.busy = true) (hr : nextEvent s ≠ .reset) :
    t.m = s.m := by
  obtain hm | hreset | ⟨hidle, -⟩ := m_of_step h
  · exact hm
  · exact absurd hreset hr
  · simp [hb] at hidle

/-- `t` is what `n` steps leave, the first a START that finds `s` idle and none of the others HALT: the call is running,
as far on as the sequencer has had turns. -/
structure DuringCall (n : Nat) (s t : State) : Prop where
  run : runSteps n s = .next t
  inCall : InCall t
  pc : t.pc.toNat = (events n s).count .sequencer
  m : t.m = s.m
  trace : (instrTrace n s).filter (fun i => i != .start) = coreProgram.take ((events n s).count .sequencer)

/-- START begins the call. -/
theorem duringCall_start {s : State} (hs : s.busy = false) (he : nextEvent s = .host (.writeCtrl 1#1))
    (hm : MLoaded s) : ∃ t, DuringCall 1 s t := by
  obtain ⟨u, hu, hus⟩ := step_start hs he
  have hp : performed s = some .start := by
    unfold performed
    rw [he]
    rfl
  have hev : (events 1 s).count .sequencer = 0 := by
    rw [events_succ_eq_cons, he]
    rfl
  refine ⟨u, (runSteps_one s).trans hu, hus.symm.inCall (inCall_start hs hm), ?_, ?_, ?_⟩
  · rw [hev, hus.pc, effectOf_start_idle hs]
    rfl
  · rw [step_eq_effectOf hu hp, effectOf_m]
    rfl
  · rw [hev, instrTrace_one, hp]
    rfl

/-- Whatever the next event is, but for a reset, the call goes on up to HALT. -/
theorem DuringCall.succ {n : Nat} {s t : State} (h : DuringCall n s t) (hr : nextEvent t ≠ .reset)
    (hn : (events (n + 1) s).count .sequencer ≤ 148) : ∃ u, DuringCall (n + 1) s u := by
  obtain ⟨hrun, hev⟩ := runSteps_succ_last h.run
  have hcount : (events (n + 1) s).count .sequencer = t.pc.toNat + [nextEvent t].count .sequencer := by
    rw [hev, List.count_append, h.pc]
  obtain ⟨u, hu, hut⟩ := h.inCall.step_next hr
  obtain ⟨hcu, hpc⟩ := h.inCall.turns (k := [nextEvent t].count .sequencer) (by omega)
  refine ⟨u, hrun.trans hu, hut.symm.inCall hcu, ?_, (m_of_step_of_busy hu h.inCall.busy hr).trans h.m, ?_⟩
  · rw [hcount, hut.pc, hpc]
  · rw [instrTrace_succ_last h.run, List.filter_append, h.trace, ← h.pc, h.inCall.take_performed, hcount]

/-- From a START that finds the block idle, every run without reset that has not come to HALT is in the call. -/
theorem duringCall_of_le {s : State} (hs : s.busy = false) (he : nextEvent s = .host (.writeCtrl 1#1)) (hm : MLoaded s)
    {n : Nat} (h0 : 1 ≤ n) (hr : .reset ∉ events n s) (hn : (events n s).count .sequencer ≤ 148) :
    ∃ t, DuringCall n s t := by
  induction n, h0 using Nat.le_induction with
  | base => exact duringCall_start hs he hm
  | succ n _ ih =>
    have hpre := events_prefix (Nat.le_succ n) s
    obtain ⟨t, ht⟩ := ih (fun h => hr (hpre.subset h)) (Nat.le_trans (hpre.sublist.count_le _) hn)
    obtain ⟨-, hev⟩ := runSteps_succ_last ht.run
    exact ht.succ (fun h => hr (by simp [hev, h])) hn

/-- At 148 a turn is HALT (44 R136). -/
theorem InCall.afterTurn_eq_halt {s : State} (hc : InCall s) (h : s.pc.toNat = 148) :
    afterTurn s = { s with busy := false, done := true } := by
  obtain ⟨i, hi⟩ := fetched_of_le hc.pc_le
  rw [afterTurn_of_fetched hi, (fetched_eq_halt_iff hi).2 h, effectOf_halt]

/-- A call has written every element by the time it comes to HALT (70 R176). -/
theorem InCall.isWritten {s : State} (hc : InCall s) (h : s.pc.toNat = 148) :
    (∀ i < 80, s.isWritten (.w i) = true) ∧ (∀ i < 8, s.isWritten (.x i) = true) ∧
      (∀ i < 8, s.isWritten (.hv i) = true) ∧ ∀ k < 64, s.isWritten (.out k) = true := by
  obtain ⟨hw, hx, hhv, hout⟩ := hc.progress
  rw [h] at hw hx hhv hout
  exact ⟨hw, hx (by decide), hhv (by decide), hout (by decide)⟩

/-- Marks are part of the block's data. -/
theorem SameData.isWritten {s s' : State} (h : SameData s s') :
    (∀ i, s.isWritten (.w i) = s'.isWritten (.w i)) ∧ (∀ i, s.isWritten (.x i) = s'.isWritten (.x i)) ∧
      (∀ i, s.isWritten (.hv i) = s'.isWritten (.hv i)) ∧ ∀ k, s.isWritten (.out k) = s'.isWritten (.out k) :=
  ⟨fun i => congrArg Marked.written (h.w i), fun i => congrArg Marked.written (h.x i),
    fun i => congrArg Marked.written (h.hv i), fun k => congrArg Option.isSome (h.out k)⟩

/-- The run that ends a call is one that comes to HALT, and HALT. -/
theorem endsACall_split {n : Nat} {s : State} (h : EndsACall n s) :
    ∃ k, n = k + 1 ∧ events n s = events k s ++ [.sequencer] ∧ .reset ∉ events k s ∧
      (events k s).count .sequencer = 148 := by
  obtain ⟨hr, hcount, hlast⟩ := h
  obtain _ | k := n
  · cases hlast
  obtain ⟨e, hev⟩ := events_succ_eq_append k s
  rw [hev, List.getLast?_concat] at hlast
  cases hlast
  rw [hev, List.mem_append, not_or] at hr
  rw [hev, List.count_append, List.count_singleton_self] at hcount
  exact ⟨k, rfl, hev, hr.1, by omega⟩

/-- The last step of a call is HALT: it ends the trace and the call, and leaves the data. -/
theorem DuringCall.halt {n : Nat} {s t : State} (h : DuringCall n s t) (hpc : t.pc.toNat = 148)
    (hseq : nextEvent t = .sequencer) :
    ∃ u, runSteps (n + 1) s = .next u ∧ (instrTrace (n + 1) s).filter (fun i => i != .start) = coreProgram ∧
      SameData u { t with busy := false, done := true } ∧ u.m = s.m := by
  obtain ⟨hrun, -⟩ := runSteps_succ_last h.run
  have hr : nextEvent t ≠ .reset := by simp [hseq]
  obtain ⟨u, hu, hut⟩ := h.inCall.step_next hr
  refine ⟨u, hrun.trans hu, ?_, ?_, (m_of_step_of_busy hu h.inCall.busy hr).trans h.m⟩
  · rw [instrTrace_succ_last h.run, List.filter_append, h.trace, ← h.pc, h.inCall.take_performed, hseq, hpc]
    exact List.take_of_length_le length_coreProgram.le
  · rw [hseq] at hut
    exact (h.inCall.afterTurn_eq_halt hpc) ▸ hut

/-- Settles O41: up to its last turn the run is in the call; the last turn is HALT, which leaves what was written. -/
theorem callTakes149Steps : Obligations.CallTakes149Steps := by
  intro s n hs he hn hm
  obtain ⟨m, rfl, hev, hr, hcount⟩ := endsACall_split hn
  have before : ∀ k, 0 < k → k ≤ m → ∃ t, DuringCall k s t := fun k h0 hk => by
    have hpre := events_prefix hk s
    exact duringCall_of_le hs he hm h0 (fun h => hr (hpre.subset h))
      (Nat.le_trans (hpre.sublist.count_le _) hcount.le)
  have hm0 : 0 < m := Nat.pos_of_ne_zero fun h0 => by simp [h0] at hcount
  obtain ⟨t, ht⟩ := before m hm0 (Nat.le_refl m)
  have hpc : t.pc.toNat = 148 := ht.pc.trans hcount
  obtain ⟨-, hev'⟩ := runSteps_succ_last ht.run
  have hseq : nextEvent t = .sequencer := by simpa [hev] using hev'.symm
  obtain ⟨u, hu, htrace, hut, hum⟩ := ht.halt hpc hseq
  obtain ⟨uw, ux, uhv, uout⟩ := hut.isWritten
  obtain ⟨tw, tx, thv, tout⟩ := ht.inCall.isWritten hpc
  refine ⟨htrace, fun k h0 hk => ?_, u, hu, by rw [hut.pc]; exact hpc, hut.busy, hut.done,
    fun i hi => (uw i).trans (tw i hi), fun i hi => (ux i).trans (tx i hi), fun i hi => (uhv i).trans (thv i hi),
    fun k hk => (uout k).trans (tout k hk), by rw [hum]; exact sameBytes_refl _⟩
  obtain ⟨v, hv⟩ := before k h0 (by omega)
  exact ⟨v, hv.run, hv.pc, hv.inCall.busy⟩

end Sys2Proof.Laws
end

section
/-! SUPPORT. The schedule of a message as a list: its first words are the block, and the others satisfy the recurrence
of 41 R100. -/
namespace Sys2Proof.Laws
open Sys2Proof.Machine Sys2Proof.Safety

/-- Word `j` of the message schedule of `msg` (40 R90, 41 R100). -/
def scheduleWord (msg : List Byte) (j : Nat) : Word := (scheduleOf (blockOf msg)).getD j 0

/-- The working registers after COMPRESS on the schedule of `msg` (42 R111). -/
def compressed (msg : List Byte) : Regs := compressTimes (scheduleOf (blockOf msg)) 80

theorem length_expandTimes (n : Nat) (ws : List Word) : (expandTimes n ws).length = ws.length + n := by
  induction n with
  | zero => rfl
  | succ n ih => rw [expandTimes, expandOnce, List.length_append, ih]; rfl

/-- Later words leave the earlier ones. -/
theorem getD_expandTimes {m n : Nat} (h : m ≤ n) (ws : List Word) {j : Nat} (hj : j < ws.length + m) :
    (expandTimes n ws).getD j 0 = (expandTimes m ws).getD j 0 := by
  induction n, h using Nat.le_induction with
  | base => rfl
  | succ n hmn ih => rw [expandTimes, expandOnce, List.getD_append _ _ _ _ (by rw [length_expandTimes]; omega), ih]

theorem length_blockOf (msg : List Byte) : (blockOf msg).length = 16 := by simp [blockOf]

theorem scheduleWord_eq_block (msg : List Byte) {j : Nat} (hj : j < 16) :
    scheduleWord msg j = (blockOf msg).getD j 0 :=
  getD_expandTimes (m := 0) (Nat.zero_le 64) _ (by rw [length_blockOf]; exact hj)

theorem scheduleWord_of_lt (msg : List Byte) {j : Nat} (hj : j < 12) : scheduleWord msg j = messageWord msg j := by
  have hlen : j < ((List.range 12).map (messageWord msg)).length := by simpa using hj
  rw [scheduleWord_eq_block msg (by omega), blockOf, List.getD_append _ _ _ _ hlen]
  simp [List.getD_eq_getElem?_getD, hj]

theorem scheduleWord_padding (msg : List Byte) :
    scheduleWord msg 12 = pad12 ∧ scheduleWord msg 13 = pad13 ∧ scheduleWord msg 14 = pad14 ∧
      scheduleWord msg 15 = pad15 :=
  ⟨scheduleWord_eq_block msg (by decide), scheduleWord_eq_block msg (by decide), scheduleWord_eq_block msg (by decide),
    scheduleWord_eq_block msg (by decide)⟩

/-- Each word from 16 on is made of its four taps. -/
theorem scheduleWord_expanded (msg : List Byte) {n : Nat} (h16 : 16 ≤ n) (h79 : n ≤ 79) :
    scheduleWord msg n =
      expandWord (scheduleWord msg (n - 16)) (scheduleWord msg (n - 15)) (scheduleWord msg (n - 7))
        (scheduleWord msg (n - 2)) := by
  have hlen : (expandTimes (n - 16) (blockOf msg)).length = n := by
    rw [length_expandTimes, length_blockOf]
    omega
  have tap : ∀ j < n, scheduleWord msg j = (expandTimes (n - 16) (blockOf msg)).getD j 0 := fun j hj =>
    getD_expandTimes (by omega) _ (by rw [length_blockOf]; omega)
  have hword : scheduleWord msg n = (expandTimes (n - 16 + 1) (blockOf msg)).getD n 0 :=
    getD_expandTimes (by omega) _ (by rw [length_blockOf]; omega)
  rw [hword, tap _ (by omega), tap _ (by omega), tap _ (by omega), tap _ (by omega), expandTimes, expandOnce,
    List.getD_append_right _ _ _ _ hlen.le, hlen, Nat.sub_self]
  rfl

end Sys2Proof.Laws
end

section
/-! A call computes the hash function: what every state of a call holds is what the list functions give (44 R144). -/
namespace Sys2Proof.Laws
open Sys2Proof.Machine Sys2Proof.Safety

/-- What the micro-operations before `pc` have computed from the message: the first words of the schedule, the registers
after some rounds, the output words, the output bytes (70 R176 says when each stands there). -/
structure Computed (msg : List Byte) (s : State) : Prop where
  m : ∀ k < 96, s.m.read? k = msg[k]?
  w : ∀ j < wordsWritten s.pc.toNat, s.wVal j = scheduleWord msg j
  x : 66 ≤ s.pc.toNat → s.regs = compressTimes (scheduleOf (blockOf msg)) (min 80 (s.pc.toNat - 66))
  hv : 147 ≤ s.pc.toNat → ∀ i < 8, s.hvVal i = outputWord (compressed msg) i
  out : 148 ≤ s.pc.toNat → ∀ k < 64, s.out.read? k = some (outputByte (compressed msg) k)

/-- The claims at a known step counter. -/
theorem computed_of_pc {msg : List Byte} {s : State} {p : Nat} (hp : s.pc.toNat = p)
    (hm : ∀ k < 96, s.m.read? k = msg[k]?) (hw : ∀ j < wordsWritten p, s.wVal j = scheduleWord msg j)
    (hx : 66 ≤ p → s.regs = compressTimes (scheduleOf (blockOf msg)) (min 80 (p - 66)))
    (hhv : 147 ≤ p → ∀ i < 8, s.hvVal i = outputWord (compressed msg) i)
    (hout : 148 ≤ p → ∀ k < 64, s.out.read? k = some (outputByte (compressed msg) k)) : Computed msg s := by
  subst hp
  exact ⟨hm, hw, hx, hhv, hout⟩

/-- A call at its first micro-operation has computed nothing yet. -/
theorem computed_of_pc_eq_zero {msg : List Byte} {s : State} (hpc : s.pc.toNat = 0)
    (hm : ∀ k < 96, s.m.read? k = msg[k]?) : Computed msg s :=
  computed_of_pc hpc hm (fun j hj => absurd hj (Nat.not_lt_zero j)) (fun h => absurd h (by decide))
    (fun h => absurd h (by decide)) (fun h => absurd h (by decide))

/-- The words of `M` are those of the message. -/
theorem memRead8_eq_messageWord {msg : List Byte} {s : State} (hm : ∀ k < 96, s.m.read? k = msg[k]?) {j : Nat}
    (hj : j < 12) : s.memRead8 (8 * j) = messageWord msg j := by
  have byte : ∀ k < 96, s.mByte k = msg.getD k 0 := fun k hk => by
    rw [State.mByte, hm k hk, List.getD_eq_getElem?_getD]
    rfl
  unfold State.memRead8 messageWord
  rw [byte _ (by omega), byte _ (by omega), byte _ (by omega), byte _ (by omega), byte _ (by omega), byte _ (by omega),
    byte _ (by omega), byte _ (by omega)]

/-- Writing eight registers by label. -/
theorem regs_of_xElem {s : State} {r : Regs} (h : ∀ j < 8, s.xElem j = ⟨r.get j, true⟩) : s.regs = r := by
  have val : ∀ j < 8, s.xVal j = r.get j := fun j hj => congrArg Marked.value (h j hj)
  unfold State.regs
  rw [val 0 (by decide), val 1 (by decide), val 2 (by decide), val 3 (by decide), val 4 (by decide), val 5 (by decide),
    val 6 (by decide), val 7 (by decide)]
  rfl

theorem ivRegs_get {j : Nat} (hj : j < 8) : ivRegs.get j = iv j := by
  have : j = 0 ∨ j = 1 ∨ j = 2 ∨ j = 3 ∨ j = 4 ∨ j = 5 ∨ j = 6 ∨ j = 7 := by omega
  rcases this with rfl | rfl | rfl | rfl | rfl | rfl | rfl | rfl <;> rfl

/-- ASM leaves the block of the message in `W`. -/
theorem wVal_effectOf_asm {msg : List Byte} {s : State} (hm : ∀ k < 96, s.m.read? k = msg[k]?) {j : Nat}
    (hj : j < 16) : (effectOf .asm s).wVal j = scheduleWord msg j := by
  obtain ⟨p12, p13, p14, p15⟩ := scheduleWord_padding msg
  rw [State.wVal, effectOf, State.wElem_advance, State.wElem_assembleBlock]
  obtain hj | rfl | rfl | rfl | rfl : j < 12 ∨ j = 12 ∨ j = 13 ∨ j = 14 ∨ j = 15 := by omega
  · rw [if_pos hj, memRead8_eq_messageWord hm hj, scheduleWord_of_lt msg hj]
  · exact p12.symm
  · exact p13.symm
  · exact p14.symm
  · exact p15.symm

/-- EXP adds the next word of the schedule. -/
theorem wVal_effectOf_exp {msg : List Byte} {s : State} {n : BitVec 7} (hn : expIndexOk n)
    (hw : ∀ j < n.toNat, s.wVal j = scheduleWord msg j) {j : Nat} (hj : j < n.toNat + 1) :
    (effectOf (.exp n) s).wVal j = scheduleWord msg j := by
  obtain ⟨h16, h79⟩ := hn
  rw [State.wVal, wElem_effectOf_exp h79]
  split
  · next hnj =>
    rw [← hnj, scheduleWord_expanded msg h16 h79, ← hw _ (by omega), ← hw _ (by omega), ← hw _ (by omega),
      ← hw _ (by omega)]
    rfl
  · exact hw j (by omega)

/-- SER writes no register. -/
theorem registers_effectOf_ser (s : State) :
    (∀ j, (effectOf .ser s).wVal j = s.wVal j) ∧ (effectOf .ser s).regs = s.regs ∧
      ∀ j, (effectOf .ser s).hvVal j = s.hvVal j := by
  simp only [State.wVal, State.xVal, State.hvVal, State.regs, effectOf, State.wElem_advance, State.wElem_writeOut,
    State.xElem_advance, State.xElem_writeOut, State.hvElem_advance, State.hvElem_writeOut, implies_true, and_self]

/-- SER leaves the output bytes when FIN has left the output words. -/
theorem read?_out_effectOf_ser_of_hvVal {v : Regs} {s : State} (hhv : ∀ i < 8, s.hvVal i = outputWord v i) {k : Nat}
    (hk : k < 64) : (effectOf .ser s).out.read? k = some (outputByte v k) := by
  rw [read?_out_effectOf_ser, if_pos hk, hhv _ (by omega), outputByte, byteOf_eq]

/-- Each micro-operation computes what the list functions give at the next one. -/
theorem Computed.effect {msg : List Byte} {s : State} {i : Instr} (h : Computed msg s) (hf : s.fetched = .ok i)
    (hpc : s.pc.toNat ≠ 148) : Computed msg (effectOf i s) := by
  obtain ⟨hnext, -⟩ := effectOf_fetched_next hf hpc
  obtain ⟨hm, hw, hx, hhv, -⟩ := h
  have hm' : ∀ k < 96, (effectOf i s).m.read? k = msg[k]? := by rwa [effectOf_m]
  obtain ⟨hp, rfl⟩ | ⟨n, hn, hp, rfl⟩ | ⟨hp, rfl⟩ | ⟨r, hr, hp, rfl⟩ | ⟨hp, rfl⟩ | ⟨hp, rfl⟩ | ⟨hp, -⟩ :=
    fetched_cases hf
  all_goals rw [hp] at hnext hw hx hhv
  · exact computed_of_pc hnext hm' (fun j hj => wVal_effectOf_asm hm hj) (by omega) (by omega) (by omega)
  · obtain ⟨h16, h79⟩ := hn
    rw [wordsWritten_of_pos (by omega)] at hw
    refine computed_of_pc hnext hm' (fun j hj => ?_) (by omega) (by omega) (by omega)
    rw [wordsWritten_of_pos (by omega)] at hj
    exact wVal_effectOf_exp ⟨h16, h79⟩ (fun j hj => hw j (by omega)) (by omega)
  · refine computed_of_pc hnext hm' hw (fun _ => regs_of_xElem fun j hj => ?_) (by omega) (by omega)
    rw [xElem_effectOf_init s j hj, ← ivRegs_get hj]
    rfl
  · rw [wordsWritten_of_pos (by omega)] at hw
    refine computed_of_pc hnext hm' (fun j hj => ?_) (fun _ => ?_) (by omega) (by omega)
    · rw [wordsWritten_of_pos (by omega)] at hj
      exact hw j (by omega)
    · have before : min 80 (66 + r.toNat - 66) = r.toNat := by omega
      have after : min 80 (66 + r.toNat + 1 - 66) = r.toNat + 1 := by omega
      rw [before] at hx
      rw [regs_of_xElem (xElem_effectOf_rnd r s), after, compressTimes, hx (by omega), hw r.toNat (by omega)]
      rfl
  · refine computed_of_pc hnext hm' hw (fun _ => hx (by decide)) (fun _ i hi => ?_) (by omega)
    obtain ⟨hfin, -⟩ := finEffect_effectOf s
    rw [State.hvVal, hfin i hi, outputWord, ← State.regs_get s hi, hx (by decide)]
    rfl
  · obtain ⟨hserW, hserX, hserHv⟩ := registers_effectOf_ser s
    refine computed_of_pc hnext hm' (fun j hj => (hserW j).trans (hw j hj)) (fun _ => hserX.trans (hx (by decide)))
      (fun _ i hi => (hserHv i).trans (hhv (by decide) i hi)) fun _ k hk =>
        read?_out_effectOf_ser_of_hvVal (hhv (by decide)) hk
  · exact absurd hp hpc

/-- Turns before HALT compute what the list functions give. -/
theorem Computed.turns {msg : List Byte} {s : State} (h : Computed msg s) (hc : InCall s) {k : Nat}
    (hk : s.pc.toNat + k ≤ 148) : Computed msg (afterTurn^[k] s) := by
  induction k with
  | zero => exact h
  | succ k ih =>
    obtain ⟨hck, hpc⟩ := hc.turns (k := k) (by omega)
    obtain ⟨i, hi⟩ := fetched_of_le hck.pc_le
    rw [Function.iterate_succ_apply', afterTurn_of_fetched hi]
    exact (ih (by omega)).effect hi (by omega)

/-- What the 149 turns of a call leave: HALT is the last of them, and `OUT` holds the hash of the message. -/
theorem turns_of_inCall {msg : List Byte} {s : State} (hc : InCall s) (hpc : s.pc.toNat = 0)
    (hm : ∀ k < 96, s.m.read? k = msg[k]?) :
    (afterTurn^[149] s).busy = false ∧ (afterTurn^[149] s).done = true ∧
      ∀ k < 64, (afterTurn^[149] s).out.read? k = some (outputByte (compressed msg) k) := by
  obtain ⟨hc148, hpc148⟩ := hc.turns (k := 148) (by omega)
  have hout := ((computed_of_pc_eq_zero hpc hm).turns hc (k := 148) (by omega)).out (by omega)
  have hlast : afterTurn^[149] s = afterTurn (afterTurn^[148] s) := Function.iterate_succ_apply' afterTurn 148 s
  rw [hlast, hc148.afterTurn_eq_halt (by omega)]
  generalize afterTurn^[148] s = t at hout
  exact ⟨rfl, rfl, hout⟩

theorem getElem?_hashBytes (msg : List Byte) {k : Nat} (hk : k < 64) :
    (hashBytes msg)[k]? = some (outputByte (compressed msg) k) := by
  rw [hashBytes, List.getElem?_map, List.getElem?_range hk]
  rfl

/-- A space that holds a message of 96 bytes is written throughout. -/
theorem mLoaded_of_message {msg : List Byte} {s : State} (hlen : msg.length = 96)
    (hm : ∀ k < 96, s.m.read? k = msg[k]?) : MLoaded s := fun k hk => by
  rw [hm k hk, List.getElem?_eq_getElem (by omega)]
  rfl

/-- Settles O42: the block ends as after the turns of the sequencer alone, and those compute the list functions. -/
theorem callComputesTheHashFunction : Obligations.CallComputesTheHashFunction := by
  intro s n msg hb hpc hn hlen hm
  obtain ⟨hr, hcount, hlast⟩ := hn
  have hpc0 : s.pc.toNat = 0 := by rw [hpc]; rfl
  have hc : InCall s := ⟨hb, by omega, callProgress_of_pc_eq_zero hpc, mLoaded_of_message hlen hm⟩
  obtain ⟨t, ht, hdone, hts⟩ := hc.runSteps_to_end hr (by omega) hlast
  rw [hcount] at hts
  obtain ⟨-, -, hout⟩ := turns_of_inCall hc hpc0 hm
  exact ⟨t, ht, hdone, fun k hk => by rw [hts.out, hout k hk, getElem?_hashBytes msg hk]⟩

end Sys2Proof.Laws
end

section
/-! SUPPORT. Runs put together, and what a run does to the events to come and to the host's record. -/
namespace Sys2Proof.Laws
open Sys2Proof.Machine Sys2Proof.Safety

theorem runSteps_add {m : Nat} {s t : State} (h : runSteps m s = .next t) (n : Nat) :
    runSteps (m + n) s = runSteps n t := by
  induction m generalizing s with
  | zero =>
    cases h
    rw [Nat.zero_add]
  | succ m ih =>
    obtain ⟨u, hs, hrun⟩ := exists_of_runSteps_succ h
    rw [Nat.succ_add, runSteps_succ hs, ih hrun]

/-- A run takes the events it performs off the agenda (log 8). -/
theorem runSteps_agenda {n : Nat} {s t : State} (h : runSteps n s = .next t) : t.agenda = s.agenda.drop n := by
  induction n generalizing s with
  | zero => cases h; rfl
  | succ n ih =>
    obtain ⟨u, hs, hrun⟩ := exists_of_runSteps_succ h
    rw [ih hrun, step_agenda hs, List.drop_tail]

/-- The events that give the host no answer: of its operations, the writes to `CTRL`. -/
def NoAnswer (e : Event) : Prop := ∀ op, e = .host op → ∃ b, op = .writeCtrl b

/-- No instruction touches what the host got back. -/
@[simp] theorem effectOf_replies (i : Instr) (s : State) : (effectOf i s).replies = s.replies :=
  (effectOf_outside i s).2

theorem step_replies {s t : State} (h : step s = .next t) (he : NoAnswer (nextEvent s)) : t.replies = s.replies := by
  obtain ⟨i, hi, -⟩ | ⟨-, -, rfl⟩ | ⟨-, op, hop, rfl⟩ | ⟨-, -, -, rfl⟩ := step_next_cases h
  · rw [step_eq_effectOf h hi, effectOf_replies]
    rfl
  · rfl
  · obtain ⟨b, rfl⟩ := he op hop
    rfl
  · rfl

theorem runSteps_replies {n : Nat} {s t : State} (h : runSteps n s = .next t) (he : ∀ e ∈ events n s, NoAnswer e) :
    t.replies = s.replies := by
  induction n generalizing s with
  | zero => cases h; rfl
  | succ n ih =>
    obtain ⟨u, hs, hrun⟩ := exists_of_runSteps_succ h
    rw [events_succ_eq_cons, events_of_step hs, List.forall_mem_cons] at he
    obtain ⟨hfirst, hrest⟩ := he
    exact (ih hrun hrest).trans (step_replies hs hfirst)

/-- When at least `n` events are listed, the next `n` steps perform the first `n` of them. -/
theorem events_of_agenda {n : Nat} {s : State} {first rest : List Event} (h : s.agenda = first ++ rest)
    (hn : first.length = n) : events n s = first := by
  subst hn
  rw [events, h, List.append_assoc, List.take_left]

end Sys2Proof.Laws
end

section
/-! The host procedure HASH (44 R144, log 18): it loads the message, begins a call and waits for its end, and reads the
result. -/
namespace Sys2Proof.Laws
open Sys2Proof.Machine Sys2Proof.Safety

/-! Loading -/

/-- `M` after the host's writes of bytes to addresses, one after another. -/
def storeAll (m : Memory) (cells : List Host.Cell) : Memory :=
  cells.foldl (fun m c => m.write (c.1 % 96) c.2) m

/-- An idle block takes the host's writes. -/
theorem runSteps_writes (cells : List Host.Cell) {s : State} {rest : List Event} (hb : s.busy = false)
    (ha : s.agenda = cells.map (fun c => hostWrite c.1 c.2) ++ rest) :
    runSteps cells.length s = .next { s with m := storeAll s.m cells, agenda := rest } := by
  induction cells generalizing s with
  | nil =>
    obtain rfl : s.agenda = rest := ha
    rfl
  | cons c cells ih =>
    have hstep : step s = .next
        { s with m := s.m.write (c.1 % 96) c.2, agenda := cells.map (fun c => hostWrite c.1 c.2) ++ rest } :=
      (step_of_agenda ha).trans (congrArg Host.Outcome.next (hostWriteM_of_idle (by simp [hb]) _ _))
    rw [List.length_cons, runSteps_succ hstep]
    exact ih hb rfl

/-- Writes that agree on an address leave there what they write. -/
theorem read?_storeAll {cells : List Host.Cell} {m : Memory} {k : Nat} {b : Byte}
    (hb : ∀ c ∈ cells, c.1 % 96 = k → c.2 = b) (hk : (∃ c ∈ cells, c.1 % 96 = k) ∨ m.read? k = some b) :
    (storeAll m cells).read? k = some b := by
  induction cells generalizing m with
  | nil =>
    obtain ⟨c, hc, -⟩ | hk := hk
    · cases hc
    · exact hk
  | cons c cells ih =>
    rw [List.forall_mem_cons] at hb
    obtain ⟨hc, hcells⟩ := hb
    refine ih hcells ?_
    rw [Memory.read?_write]
    by_cases hck : c.1 % 96 = k
    · exact .inr (by rw [if_pos hck, hc hck])
    · rw [if_neg hck]
      simpa [hck] using hk

/-- The cells `loadScript` writes, in its order (44 R144). -/
def loadCells (n p d : List Byte) : List Host.Cell :=
  (List.range 32).flatMap fun k => [(k, n.getD k 0), (32 + k, p.getD k 0), (64 + k, d.getD k 0)]

theorem loadScript_eq (n p d : List Byte) : loadScript n p d = (loadCells n p d).map fun c => hostWrite c.1 c.2 := by
  rw [loadScript, loadCells, List.map_flatMap]
  rfl

theorem length_loadCells (n p d : List Byte) : (loadCells n p d).length = 96 := by
  simp [loadCells, List.length_flatMap]

/-- Byte `k` of the nonce, the public key and the digest one after another (44 R144). -/
theorem getD_message {n p d : List Byte} (hn : n.length = 32) (hp : p.length = 32) {k : Nat} (hk : k < 32) :
    (n ++ p ++ d).getD k 0 = n.getD k 0 ∧ (n ++ p ++ d).getD (32 + k) 0 = p.getD k 0 ∧
      (n ++ p ++ d).getD (64 + k) 0 = d.getD k 0 := by
  have hnp : (n ++ p).length = 64 := by rw [List.length_append, hn, hp]
  refine ⟨?_, ?_, ?_⟩
  · rw [List.getD_append _ _ _ _ (by omega), List.getD_append _ _ _ _ (by omega)]
  · rw [List.getD_append _ _ _ _ (by omega), List.getD_append_right _ _ _ _ (by omega), hn, Nat.add_sub_cancel_left]
  · rw [List.getD_append_right _ _ _ _ (by omega), hnp, Nat.add_sub_cancel_left]

theorem mem_loadCells {n p d : List Byte} {c : Host.Cell} :
    c ∈ loadCells n p d ↔
      ∃ k < 32, c = (k, n.getD k 0) ∨ c = (32 + k, p.getD k 0) ∨ c = (64 + k, d.getD k 0) := by
  simp only [loadCells, List.mem_flatMap, List.mem_range, List.mem_cons, List.not_mem_nil, or_false]

/-- The loads put the message in `M`, each byte at its place. -/
theorem read?_storeAll_loadCells {n p d : List Byte} (hn : n.length = 32) (hp : p.length = 32) (hd : d.length = 32)
    (m : Memory) {k : Nat} (hk : k < 96) : (storeAll m (loadCells n p d)).read? k = (n ++ p ++ d)[k]? := by
  have hlen : k < (n ++ p ++ d).length := by simp [hn, hp, hd, hk]
  rw [List.getElem?_eq_getElem hlen, ← List.getD_eq_getElem _ 0 hlen]
  refine read?_storeAll (fun c hc hck => ?_) (.inl ?_)
  · obtain ⟨j, hj, hcj⟩ := mem_loadCells.1 hc
    obtain ⟨gn, gp, gd⟩ := getD_message (d := d) hn hp hj
    obtain rfl | rfl | rfl := hcj
    · rw [← hck, Nat.mod_eq_of_lt (by omega), gn]
    · rw [← hck, Nat.mod_eq_of_lt (by omega), gp]
    · rw [← hck, Nat.mod_eq_of_lt (by omega), gd]
  · obtain h | h | h : k < 32 ∨ (32 ≤ k ∧ k < 64) ∨ 64 ≤ k := by omega
    · exact ⟨(k, n.getD k 0), mem_loadCells.2 ⟨k, h, .inl rfl⟩, Nat.mod_eq_of_lt hk⟩
    · refine ⟨(32 + (k - 32), p.getD (k - 32) 0), mem_loadCells.2 ⟨k - 32, by omega, .inr (.inl rfl)⟩, ?_⟩
      simp only
      omega
    · refine ⟨(64 + (k - 64), d.getD (k - 64) 0), mem_loadCells.2 ⟨k - 64, by omega, .inr (.inr rfl)⟩, ?_⟩
      simp only
      omega

/-- The loads from an idle block leave the message in `M`. -/
theorem runSteps_loadScript {n p d : List Byte} (hn : n.length = 32) (hp : p.length = 32) (hd : d.length = 32)
    {s : State} {rest : List Event} (hb : s.busy = false) (ha : s.agenda = loadScript n p d ++ rest) :
    ∃ t, runSteps 96 s = .next t ∧ t.busy = false ∧ t.agenda = rest ∧ t.replies = s.replies ∧
      ∀ k < 96, t.m.read? k = (n ++ p ++ d)[k]? := by
  rw [loadScript_eq] at ha
  have hload := runSteps_writes (loadCells n p d) hb ha
  have hm : ∀ k < 96, (storeAll s.m (loadCells n p d)).read? k = (n ++ p ++ d)[k]? := fun _ =>
    read?_storeAll_loadCells hn hp hd s.m
  rw [length_loadCells] at hload
  generalize storeAll s.m (loadCells n p d) = m at hload hm
  exact ⟨_, hload, hb, rfl, rfl, hm⟩

/-! The call -/

theorem length_callScript : callScript.length = 150 := by rw [callScript, List.length_cons, List.length_replicate]

theorem noAnswer_of_mem_callScript {e : Event} (h : e ∈ callScript) : NoAnswer e := by
  rw [callScript, List.mem_cons] at h
  obtain rfl | h := h
  · rintro op ⟨⟩
    exact ⟨_, rfl⟩
  · rw [List.eq_of_mem_replicate h]
    nofun

/-- The script of a call is a call. -/
theorem endsACall_callScript {s : State} {rest : List Event} (ha : s.agenda = callScript ++ rest) :
    EndsACall 150 s := by
  rw [EndsACall, events_of_agenda ha length_callScript, callScript]
  refine ⟨?_, ?_, ?_⟩
  · simp
  · rw [List.count_cons_of_ne (by simp), List.count_replicate_self]
  · rw [List.getLast?_cons, List.getLast?_replicate]
    rfl

/-- The script of a call from an idle block that holds the message ends with the hash in `OUT`, no answer being given
meanwhile. -/
theorem runSteps_callScript {s : State} {rest : List Event} {msg : List Byte} (hb : s.busy = false)
    (ha : s.agenda = callScript ++ rest) (hlen : msg.length = 96) (hm : ∀ k < 96, s.m.read? k = msg[k]?) :
    ∃ t, runSteps 150 s = .next t ∧ t.busy = false ∧ t.done = true ∧ t.agenda = rest ∧ t.replies = s.replies ∧
      ∀ k < 64, t.out.read? k = some (outputByte (compressed msg) k) := by
  have hloaded : MLoaded s := mLoaded_of_message hlen hm
  have hev : nextEvent s = .host (.writeCtrl 1#1) := by rw [nextEvent, ha]; rfl
  obtain ⟨t, ht, -, hts⟩ := runSteps_of_endsACall hb hev (endsACall_callScript ha) hloaded
  have hpc : (effectOf .start s).pc.toNat = 0 := by rw [effectOf_start_idle hb]; rfl
  obtain ⟨hbusy, hdone, hout⟩ :=
    turns_of_inCall (msg := msg) (inCall_start hb hloaded) hpc (by rwa [effectOf_m])
  refine ⟨t, ht, hts.busy.trans hbusy, hts.done.trans hdone, ?_, ?_, fun k hk => (hts.out k).trans (hout k hk)⟩
  · rw [runSteps_agenda ht, ha, List.drop_left' length_callScript]
  · refine runSteps_replies ht fun e he => noAnswer_of_mem_callScript ?_
    rwa [events_of_agenda ha length_callScript] at he

/-! Reading -/

/-- With a result, reads of `OUT` answer its bytes in order. -/
theorem runSteps_reads {ks : List Nat} (hks : ∀ k ∈ ks, k < 64) {f : Nat → Byte} {s : State} {rest : List Event}
    (hd : s.done = true) (hout : ∀ k < 64, s.out.read? k = some (f k))
    (ha : s.agenda = ks.map (fun k => .host (.readOut (Fin.ofNat 64 k))) ++ rest) :
    runSteps ks.length s =
      .next { s with agenda := rest, replies := (ks.map fun k => HostReply.byte (f k)).reverse ++ s.replies } := by
  induction ks generalizing s with
  | nil =>
    obtain rfl : s.agenda = rest := ha
    rfl
  | cons k ks ih =>
    rw [List.forall_mem_cons] at hks
    obtain ⟨hk, hks⟩ := hks
    have hstep := step_of_readOut ha
    have hval : (Fin.ofNat 64 k).val = k := Nat.mod_eq_of_lt hk
    rw [hval, hostReadOut_of_some hd (hout k hk)] at hstep
    rw [List.length_cons, runSteps_succ hstep, List.map_cons, List.reverse_cons, List.append_assoc]
    exact ih hks hd hout rfl

/-- The poll answers `DONE = 1`, and the 64 reads answer the bytes of `OUT`. -/
theorem runSteps_readScript {f : Nat → Byte} {s : State} (hb : s.busy = false) (hd : s.done = true)
    (hout : ∀ k < 64, s.out.read? k = some (f k)) (ha : s.agenda = readScript) :
    ∃ t, runSteps 65 s = .next t ∧ t.agenda = [] ∧ t.done = true ∧
      t.replies = ((List.range 64).map fun k => HostReply.byte (f k)).reverse ++ .status 0b10#2 :: s.replies := by
  have hstatus : s.status = 0b10#2 := by rw [State.status, hb, hd]; rfl
  have hpoll := step_of_agenda (ha.trans (show readScript = _ from rfl))
  have hreads := runSteps_reads (ks := List.range 64) (rest := []) (f := f) (s := State.reply
    { s with agenda := (List.range 64).map fun k => .host (.readOut (Fin.ofNat 64 k)) } (.status s.status))
    (fun k => List.mem_range.1) hd hout (List.append_nil _).symm
  rw [List.length_range] at hreads
  refine ⟨_, (runSteps_succ hpoll 64).trans hreads, rfl, hd, ?_⟩
  rw [← hstatus]
  rfl

theorem length_readScript : readScript.length = 65 := by
  rw [readScript, List.length_cons, List.length_map, List.length_range]

theorem length_hashScript (n p d : List Byte) : (hashScript n p d).length = 96 + (150 + 65) := by
  rw [hashScript, List.length_append, List.length_append, loadScript_eq, List.length_map, length_loadCells,
    length_callScript, length_readScript]

/-- Settles O44: the loads put the message in `M`, the call leaves its hash in `OUT`, and the reads deliver it. -/
theorem hashProcedureDeliversTheHash : Obligations.HashProcedureDeliversTheHash := by
  intro s n p d hn hp hd hb ha
  have hmsg : (n ++ p ++ d).length = 96 := by rw [List.length_append, List.length_append, hn, hp, hd]
  rw [hashScript, List.append_assoc] at ha
  obtain ⟨r, hr, hrbusy, hragenda, hrreplies, hrm⟩ := runSteps_loadScript hn hp hd hb ha
  obtain ⟨t, ht, hbusy, hdone, hagenda, hreplies, hout⟩ := runSteps_callScript hrbusy hragenda hmsg hrm
  obtain ⟨u, hu, huagenda, hudone, hureplies⟩ := runSteps_readScript hbusy hdone hout hagenda
  have hbytes : (hash n p d).map HostReply.byte =
      (List.range 64).map fun k => HostReply.byte (outputByte (compressed (n ++ p ++ d)) k) := by
    rw [Machine.hash, hashBytes, List.map_map]
    rfl
  have hlen : (((List.range 64).map fun k => HostReply.byte
      (outputByte (compressed (n ++ p ++ d)) k)).reverse).length = 64 := by simp
  rw [length_hashScript, runSteps_add hr, runSteps_add ht]
  refine ⟨u, hu, huagenda, hudone, ?_, ?_⟩
  · rw [hureplies, List.take_left' hlen, List.reverse_reverse, hbytes]
  · rw [hureplies, List.drop_left' hlen, hreplies, hrreplies]

/-- Settles O45: `hashBytes` lists the 64 output bytes. -/
theorem hashIsAlways64Bytes : Obligations.HashIsAlways64Bytes := fun n p d => by
  rw [Machine.hash, hashBytes, List.length_map, List.length_range]

/-- Settles O46: the test of `hashDyn` is on the three lengths. -/
theorem hashDynChecksTheLengths : Obligations.HashDynChecksTheLengths := by
  intro s n p d
  refine ⟨fun h => ?_, fun hn hp hd => ?_⟩
  · have hbad : hashDyn n p d s = .error .invalidLength := if_neg (by omega)
    rw [hbad]
    exact ⟨rfl, rfl⟩
  · have hgood : hashDyn n p d s = .ok { s with agenda := s.agenda ++ hashScript n p d } := if_pos ⟨hn, hp, hd⟩
    rw [hgood]
    exact ⟨rfl, rfl⟩

end Sys2Proof.Laws
end

section
/-! COMPRESS as a function of `W` (42 R113). -/
namespace Sys2Proof.Laws
open Sys2Proof.Machine Sys2Proof.Safety

/-- The words `W[0..79]` hold, in order. -/
def scheduleIn (s : State) : List Word := (List.range 80).map s.wVal

theorem getD_scheduleIn (s : State) {n : Nat} (hn : n < 80) : (scheduleIn s).getD n 0 = s.wVal n := by
  simp [scheduleIn, List.getD_eq_getElem?_getD, hn]

/-- The labels of the initial hash value are its words (10_state R30). -/
theorem written8_ivRegs : written8 iv = written8 ivRegs.get := rfl

/-- INIT and the first `n` rounds, from a written `W`: none stops, `W` stays, and `x` is what the rounds make of `W`. -/
theorem execSeq_init_rounds {s : State} (hs : ∀ j < 80, s.isWritten (.w j) = true) {n : Nat} (hn : n ≤ 80) :
    ∃ t, execSeq (.init :: rounds n) s = .next t ∧ t.w = s.w ∧ t.x = written8 (compressTimes (scheduleIn s) n).get := by
  induction n with
  | zero =>
    have hinit : execSeq (.init :: rounds 0) s = exec .init s := execSeq_concat (is := []) rfl .init
    refine ⟨_, hinit.trans (exec_init s), ?_, ?_⟩
    all_goals rw [effectOf_init]
    exact written8_ivRegs
  | succ n ih =>
    obtain ⟨t, ht, htw, htx⟩ := ih (by omega)
    have hr : (BitVec.ofNat 7 n).toNat = n := Nat.mod_eq_of_lt (show n < 2 ^ 7 by omega)
    have hok : rndIndexOk (BitVec.ofNat 7 n) := by rw [rndIndexOk, hr]; omega
    have elem : ∀ j < 8, t.xElem j = ⟨(compressTimes (scheduleIn s) n).get j, true⟩ := fun j hj => by
      rw [State.xElem, htx, getD_written8, if_pos hj]
    have wElem : t.wElem n = s.wElem n := by rw [State.wElem, htw]; rfl
    have hread : ReadsWritten (.rnd (BitVec.ofNat 7 n)) t := by
      rintro e (⟨j, hj, rfl⟩ | rfl)
      · rw [State.isWritten, elem j hj]
      · rw [hr, State.isWritten, wElem]
        exact hs n (by omega)
    have hlist : Instr.init :: rounds (n + 1) = (.init :: rounds n) ++ [.rnd (BitVec.ofNat 7 n)] := by
      rw [rounds, List.range_succ, List.map_append, List.map_singleton]
      rfl
    rw [hlist, execSeq_concat ht]
    refine ⟨_, exec_rnd_of_readsWritten hok hread, ?_, ?_⟩
    all_goals rw [effectOf_rnd]
    · exact htw
    · have hword : t.wVal n = (scheduleIn s).getD n 0 := by
        rw [getD_scheduleIn s (by omega), State.wVal, wElem]
        rfl
      rw [hr, regs_of_xElem elem, hword]
      rfl

/-- Settles O48: both runs leave what the rounds make of the same 80 words. -/
theorem compressionIsAFunctionOfTheSchedule : Obligations.CompressionIsAFunctionOfTheSchedule := by
  intro s s' hs hs' hval
  have hsame : scheduleIn s = scheduleIn s' := List.map_congr_left fun j hj => hval j (List.mem_range.1 hj)
  obtain ⟨t, ht, -, htx⟩ := execSeq_init_rounds hs (Nat.le_refl 80)
  obtain ⟨t', ht', -, htx'⟩ := execSeq_init_rounds hs' (Nat.le_refl 80)
  exact ⟨t, t', ht, ht', by rw [htx, htx', hsame]⟩

end Sys2Proof.Laws
end

section
/-! Words, bytes and bits (00_scope R8 to R11). -/
namespace Sys2Proof.Laws
open Sys2Proof.Machine Sys2Proof.Safety

/-- Settles O57: the model's rotation is the library's, whose low bits come from `n` places above and whose high ones
wrap. -/
theorem rotationMovesBits : Obligations.RotationMovesBits := by
  intro x n i _ hn hi
  rw [rotr_eq_rotateRight x hn, BitVec.getLsbD_rotateRight, Nat.mod_eq_of_lt hn]
  by_cases hlow : i < 64 - n
  · rw [decide_eq_true hlow, cond_true, Nat.mod_eq_of_lt (by omega), Nat.add_comm]
  · have hwrap : (i + n) % 64 = i - (64 - n) := by omega
    rw [decide_eq_false hlow, cond_false, decide_eq_true hi, Bool.true_and, hwrap]

/-- A byte's value, counted from the most significant (00_scope R7). -/
theorem toNat_byteOf (k : Nat) (v : Word) : (byteOf k v).toNat = v.toNat / 2 ^ (56 - 8 * k) % 2 ^ 8 := by
  rw [byteOf, BitVec.extractLsb'_toNat, Nat.shiftRight_eq_div_pow]

/-- The value of eight bytes does not exceed a word's (00_scope R9). -/
theorem toNat_be64 (b0 b1 b2 b3 b4 b5 b6 b7 : Byte) :
    (be64 b0 b1 b2 b3 b4 b5 b6 b7).toNat =
      b0.toNat * 2 ^ 56 + b1.toNat * 2 ^ 48 + b2.toNat * 2 ^ 40 + b3.toNat * 2 ^ 32 + b4.toNat * 2 ^ 24 +
        b5.toNat * 2 ^ 16 + b6.toNat * 2 ^ 8 + b7.toNat := by
  have h0 := b0.isLt
  have h1 := b1.isLt
  have h2 := b2.isLt
  have h3 := b3.isLt
  have h4 := b4.isLt
  have h5 := b5.isLt
  have h6 := b6.isLt
  have h7 := b7.isLt
  rw [be64, BitVec.toNat_ofNat, Nat.mod_eq_of_lt (by omega)]

/-- Byte `k` of the word of eight bytes is the `k`-th of them: those above it are multiples of its own range, those
below add less than its unit. -/
theorem byteOf_be64 (b : Nat → Byte) {k : Nat} (hk : k < 8) :
    byteOf k (be64 (b 0) (b 1) (b 2) (b 3) (b 4) (b 5) (b 6) (b 7)) = b k := by
  apply BitVec.eq_of_toNat_eq
  rw [toNat_byteOf, toNat_be64]
  have h0 := (b 0).isLt
  have h1 := (b 1).isLt
  have h2 := (b 2).isLt
  have h3 := (b 3).isLt
  have h4 := (b 4).isLt
  have h5 := (b 5).isLt
  have h6 := (b 6).isLt
  have h7 := (b 7).isLt
  obtain rfl | rfl | rfl | rfl | rfl | rfl | rfl | rfl :
      k = 0 ∨ k = 1 ∨ k = 2 ∨ k = 3 ∨ k = 4 ∨ k = 5 ∨ k = 6 ∨ k = 7 := by omega
  all_goals
    simp only [Nat.reduceMul, Nat.reduceSub, Nat.reducePow]
    omega

/-- A word is the word of its eight bytes. -/
theorem be64_byteOf (v : Word) :
    be64 (byteOf 0 v) (byteOf 1 v) (byteOf 2 v) (byteOf 3 v) (byteOf 4 v) (byteOf 5 v) (byteOf 6 v) (byteOf 7 v) =
      v := by
  have hv := v.isLt
  apply BitVec.eq_of_toNat_eq
  simp only [toNat_be64, toNat_byteOf, Nat.reduceMul, Nat.reduceSub, Nat.reducePow]
  omega

/-- Settles O58: the two directions. -/
theorem bytesAndWordsAreInverse : Obligations.BytesAndWordsAreInverse :=
  ⟨be64_byteOf, fun b _ hk => byteOf_be64 b hk⟩

/-- What `Ch` chooses from `y` and what from `z` have no bit in common. -/
theorem choose_parts_disjoint (x y z : Word) : (x &&& y) &&& (~~~x &&& z) = 0#64 := by
  ext i hi
  simp only [BitVec.getElem_and, BitVec.getElem_not, BitVec.getElem_zero]
  cases x[i] <;> simp

/-- Parts without a common bit are put together alike by exclusive or and by or. -/
theorem xor_eq_or_of_and_eq_zero {a b : Word} (h : a &&& b = 0#64) : a ^^^ b = a ||| b := by
  ext i hi
  have hbit : (a[i] && b[i]) = false := by
    rw [← BitVec.getElem_and, h, BitVec.getElem_zero]
  rw [BitVec.getElem_xor, BitVec.getElem_or]
  revert hbit
  cases a[i] <;> cases b[i] <;> simp

theorem choose_eq_or (x y z : Word) : choose x y z = (x &&& y) ||| (~~~x &&& z) :=
  xor_eq_or_of_and_eq_zero (choose_parts_disjoint x y z)

/-- `Maj` bit by bit: a bit that two of the three have. -/
theorem majority_forms (x y z : Word) :
    majority x y z = (x &&& y) ||| (x &&& z) ||| (y &&& z) ∧ majority x y z = (x &&& (y ||| z)) ||| (y &&& z) := by
  unfold majority
  refine ⟨?_, ?_⟩
  all_goals
    ext i hi
    simp only [BitVec.getElem_and, BitVec.getElem_xor, BitVec.getElem_or]
    cases x[i] <;> cases y[i] <;> cases z[i] <;> rfl

/-- Settles O59: where no bit is in common, exclusive or, or and addition agree. -/
theorem chooseAndMajorityForms : Obligations.ChooseAndMajorityForms := fun x y z =>
  ⟨choose_eq_or x y z,
    (choose_eq_or x y z).trans (BitVec.add_eq_or_of_and_eq_zero _ _ (choose_parts_disjoint x y z)).symm,
    majority_forms x y z⟩

end Sys2Proof.Laws
end

section
/-! The constants (10_state R30, R31). -/
namespace Sys2Proof.Laws
open Sys2Proof.Machine Sys2Proof.Safety

/-- The largest `c ≤ b` with `c ^ e ≤ p`: the integer part of the `e`-th root, if `b` is not below it. -/
def rootBelow (b e p : Nat) : Nat := Nat.findGreatest (fun c => c ^ e ≤ p) b

/-- The fixed-point root whose integer part is `r` and whose fractional bits are those of the constant `v`. -/
def fixedRoot (r : Nat) (v : Word) : Nat := r * 2 ^ 64 + v.toNat

theorem fixedRoot_mod (r : Nat) (v : Word) : v.toNat = fixedRoot r v % 2 ^ 64 := by
  rw [fixedRoot, Nat.mul_add_mod_self_right, Nat.mod_eq_of_lt v.isLt]

/-- Settles O60: with the integer part of the root before it, each constant is the root's largest approximation from
below, by evaluation of the table. -/
theorem constantsAreRootsOfPrimes : Obligations.ConstantsAreRootsOfPrimes := by
  have squares : ∀ i < 8,
      fixedRoot (rootBelow 4 2 (primes80.getD i 0)) (iv i) ^ 2 ≤ primes80.getD i 0 * 2 ^ 128 ∧
        primes80.getD i 0 * 2 ^ 128 < (fixedRoot (rootBelow 4 2 (primes80.getD i 0)) (iv i) + 1) ^ 2 := by decide
  have cubes : ∀ r < 80,
      fixedRoot (rootBelow 7 3 (primes80.getD r 0)) (kConst r) ^ 3 ≤ primes80.getD r 0 * 2 ^ 192 ∧
        primes80.getD r 0 * 2 ^ 192 < (fixedRoot (rootBelow 7 3 (primes80.getD r 0)) (kConst r) + 1) ^ 3 := by decide
  refine ⟨fun i hi => ?_, fun r hr => ?_⟩
  · obtain ⟨hle, hlt⟩ := squares i hi
    exact ⟨_, hle, hlt, fixedRoot_mod _ _⟩
  · obtain ⟨hle, hlt⟩ := cubes r hr
    exact ⟨_, hle, hlt, fixedRoot_mod _ _⟩

end Sys2Proof.Laws
end

section
/-! What instructions in a row compute: ASM and its message, ASM and two EXP, INIT and round 0, FIN and SER. -/
namespace Sys2Proof.Laws
open Sys2Proof.Machine Sys2Proof.Safety

/-- Byte `k` of a big-endian word, the two written by shifting and by concatenation. -/
theorem wordByte_bigEndian (b : Nat → Byte) {k : Nat} (hk : k < 8) : wordByte (bigEndian b) k = b k := by
  rw [← byteOf_eq, ← be64_eq, byteOf_be64 b hk]

/-- Settles O49: word `j` is the big-endian word of the bytes from `8j` on. -/
theorem messageIsRecoverableFromTheBlock : Obligations.MessageIsRecoverableFromTheBlock := by
  intro s t hm h j hj k hk
  obtain ⟨-, -, rfl⟩ := (exec_next_iff _ _ _).1 h
  obtain ⟨hwords, -⟩ := asmEffect_effectOf (s := s) (b := s.mByte) fun _ _ => rfl
  obtain ⟨b, hb⟩ := Option.isSome_iff_exists.1 (hm (8 * j + k) (by omega))
  rw [State.wVal, hwords j hj, wordByte_bigEndian _ hk, State.mByte, hb]
  rfl

/-- The word EXP writes and the words it leaves, by value (41 R100). -/
theorem wVal_of_expEffect {n : Nat} {s t : State} (h : ExpEffect n s t) :
    t.wVal n = s.wVal (n - 16) + sigma0 (s.wVal (n - 15)) + s.wVal (n - 7) + sigma1 (s.wVal (n - 2)) ∧
      ∀ j, j ≠ n → t.wVal j = s.wVal j := by
  obtain ⟨hword, hothers, -⟩ := h
  exact ⟨congrArg Marked.value hword, fun j hj => congrArg Marked.value (hothers j hj)⟩

/-- Settles O50: of the taps of EXP 16 and EXP 17, `W[14]` and `W[15]` are padding, and `sigma1` of them is known. -/
theorem firstExpandedWordsFromThePadding : Obligations.FirstExpandedWordsFromThePadding := by
  intro s t u v hasm h16 h17
  obtain ⟨-, -, rfl⟩ := (exec_next_iff _ _ _).1 hasm
  obtain ⟨-, -, -, p14, p15, -⟩ := asmEffect_effectOf (s := s) (b := s.mByte) fun _ _ => rfl
  generalize effectOf .asm s = t at h16 p14 p15 ⊢
  obtain ⟨-, -, rfl⟩ := (exec_next_iff _ _ _).1 h16
  obtain ⟨hu16, hu⟩ := wVal_of_expEffect (expEffect_effectOf (i := 16#7) (by decide) t)
  generalize effectOf (.exp 16#7) t = u at h17 hu16 hu
  obtain ⟨-, -, rfl⟩ := (exec_next_iff _ _ _).1 h17
  obtain ⟨hv17, hv⟩ := wVal_of_expEffect (expEffect_effectOf (i := 17#7) (by decide) u)
  generalize effectOf (.exp 17#7) u = v at hv17 hv ⊢
  have s14 : sigma1 (t.wVal 14) = 0#64 := by rw [State.wVal, p14]; decide
  have s15 : sigma1 (t.wVal 15) = 0x006000000000180c#64 := by rw [State.wVal, p15]; decide
  change u.wVal 16 = t.wVal 0 + sigma0 (t.wVal 1) + t.wVal 9 + sigma1 (t.wVal 14) at hu16
  change v.wVal 17 = u.wVal 1 + sigma0 (u.wVal 2) + u.wVal 10 + sigma1 (u.wVal 15) at hv17
  refine ⟨?_, ?_⟩
  · rw [hv 16 (by decide), hu16, s14, BitVec.add_zero]
  · rw [hv17, hu 1 (by decide), hu 2 (by decide), hu 10 (by decide), hu 15 (by decide), s15]

/-- Settles O51: on the initial hash value `T1` and `T2` of round 0 are constants but for `W[0]`. -/
theorem fusedRoundZeroIsTheUniformForm : Obligations.FusedRoundZeroIsTheUniformForm := by
  intro s t u hinit hrnd
  obtain ⟨-, -, rfl⟩ := (exec_next_iff _ _ _).1 hinit
  have xinit : ∀ j < 8, (effectOf .init s).xVal j = iv j := fun j hj =>
    congrArg Marked.value (xElem_effectOf_init s j hj)
  have winit : (effectOf .init s).wVal 0 = s.wVal 0 := rfl
  generalize effectOf .init s = t at hrnd xinit winit
  obtain ⟨-, -, rfl⟩ := (exec_next_iff _ _ _).1 hrnd
  obtain ⟨x0, x1, x2, x3, x4, x5, x6, x7, -⟩ := rndEffect_effectOf 0#7 t
  have ht1 : t1Of 0 t = 0x5218a97a1b97e8a0#64 + s.wVal 0 := by
    rw [t1Of, winit, xinit 4 (by decide), xinit 5 (by decide), xinit 6 (by decide), xinit 7 (by decide)]
    refine congrArg (· + s.wVal 0) ?_
    decide
  have ht2 : t2Of t = 0x4334c1bea164f555#64 := by
    rw [t2Of, xinit 0 (by decide), xinit 1 (by decide), xinit 2 (by decide)]
    decide
  have hx0 : t1Of 0 t + t2Of t = 0x954d6b38bcfcddf5#64 + s.wVal 0 := by
    rw [ht1, ht2, add_right_comm]
    rfl
  have hx4 : t.xVal 3 + t1Of 0 t = 0xf7689eb47ab51f91#64 + s.wVal 0 := by
    rw [xinit 3 (by decide), ht1, ← BitVec.add_assoc]
    rfl
  have val : ∀ {j v}, (effectOf (.rnd 0#7) t).xElem j = ⟨v, true⟩ → (effectOf (.rnd 0#7) t).xVal j = v :=
    congrArg Marked.value
  exact ⟨(val x0).trans hx0, (val x4).trans hx4, (val x1).trans (xinit 0 (by decide)),
    (val x2).trans (xinit 1 (by decide)), (val x3).trans (xinit 2 (by decide)), (val x5).trans (xinit 4 (by decide)),
    (val x6).trans (xinit 5 (by decide)), (val x7).trans (xinit 6 (by decide))⟩

/-- Settles O52: SER stores the words that FIN has left in `HV`. -/
theorem finThenSerIsOneStep : Obligations.FinThenSerIsOneStep := by
  intro s t u hfin hser i hi k hk
  obtain ⟨-, -, rfl⟩ := (exec_next_iff _ _ _).1 hfin
  obtain ⟨-, -, rfl⟩ := (exec_next_iff _ _ _).1 hser
  obtain ⟨hwords, -⟩ := finEffect_effectOf s
  obtain ⟨hbytes, -⟩ := serEffect_effectOf (effectOf .fin s)
  rw [hbytes i hi k hk, State.hvVal, hwords i hi]

end Sys2Proof.Laws
end

section
/-! Instructions that may be performed in either order (41 R102, 42 R114). -/
namespace Sys2Proof.Laws
open Sys2Proof.Machine Sys2Proof.Safety

/-- Instructions that may read what they read still may where no mark and no treatment has changed for the worse. -/
theorem readable_mono {i : Instr} {s t : State} (hs : Readable i s) (hu : t.unwrittenReads = s.unwrittenReads)
    (hw : ∀ e, Reads i e → s.isWritten e = true → t.isWritten e = true) : Readable i t := by
  obtain ⟨hheld, hi⟩ | hread := hs
  · exact .inl ⟨hu.trans hheld, hi⟩
  · exact .inr fun e he => hw e he (hread e he)

/-- EXP takes no mark away. -/
theorem isWritten_effectOf_exp {i : BitVec 7} (hi : i.toNat ≤ 79) {s : State} {e : Element}
    (he : s.isWritten e = true) : (effectOf (.exp i) s).isWritten e = true := by
  cases e with
  | w j =>
    rw [State.isWritten, wElem_effectOf_exp hi]
    split
    · rfl
    · exact he
  | m k | x j | hv j | out k => exact he

theorem readable_effectOf_exp {i : BitVec 7} (hi : i.toNat ≤ 79) {j : Instr} {s : State} (hs : Readable j s) :
    Readable j (effectOf (.exp i) s) :=
  readable_mono hs rfl fun _ _ => isWritten_effectOf_exp hi

/-- EXP reads no working register, so a round before it leaves what it reads. -/
theorem readable_exp_effectOf_rnd {i r : BitVec 7} {s : State} (hs : Readable (.exp i) s) :
    Readable (.exp i) (effectOf (.rnd r) s) := by
  refine readable_mono hs rfl ?_
  rintro e (rfl | rfl | rfl | rfl) hw
  all_goals exact hw

/-- Two instructions in a row that both may read what they read. -/
theorem execSeq_pair {i j : Instr} {s : State} (hi : i.wf = true) (hj : j.wf = true) (hri : Readable i s)
    (hrj : Readable j (effectOf i s)) : execSeq [i, j] s = .next (effectOf j (effectOf i s)) := by
  have hfirst : exec i s = .next (effectOf i s) := (exec_next_iff _ _ _).2 ⟨hi, hri, rfl⟩
  have hsecond : exec j (effectOf i s) = .next (effectOf j (effectOf i s)) := (exec_next_iff _ _ _).2 ⟨hj, hrj, rfl⟩
  simp only [execSeq, hfirst, hsecond]

/-- EXP of a word that is no tap leaves the word to be computed. -/
theorem expandedWord_effectOf_exp {i j : BitVec 7} (hi : i.toNat ≤ 79) (h : ¬Reads (.exp j) (.w i.toNat)) (s : State) :
    (effectOf (.exp i) s).expandedWord j.toNat = s.expandedWord j.toNat := by
  simp only [Reads, Element.w.injEq, not_or] at h
  obtain ⟨h16, h15, h7, h2⟩ := h
  simp only [State.expandedWord, State.wVal, wElem_effectOf_exp hi, h16, h15, h7, h2, if_false]

/-- Writes to two places of `W` may be exchanged. -/
theorem setIfInBounds_comm (v : Vector Marked 80) {i j : Nat} (h : i ≠ j) (a b : Marked) :
    (v.setIfInBounds i a).setIfInBounds j b = (v.setIfInBounds j b).setIfInBounds i a := by
  apply Vector.toArray_inj.1
  simpa using Array.setIfInBounds_comm a b h

/-- Settles O53: neither EXP changes the word the other computes, and they write to different places. -/
theorem independentExpansionsCommute : Obligations.IndependentExpansionsCommute := by
  intro s i j hi hj hij hji hij' hri hrj
  have hne : i.toNat ≠ j.toNat := fun h => hij (BitVec.eq_of_toNat_eq h)
  have hcomm : effectOf (.exp i) (effectOf (.exp j) s) = effectOf (.exp j) (effectOf (.exp i) s) := by
    have hw : (effectOf (.exp i) s).expandedWord j.toNat = s.expandedWord j.toNat :=
      expandedWord_effectOf_exp hi.2 hij' s
    have hw' : (effectOf (.exp j) s).expandedWord i.toNat = s.expandedWord i.toNat :=
      expandedWord_effectOf_exp hj.2 hji s
    rw [effectOf_exp j (effectOf _ _), effectOf_exp i (effectOf _ _), hw, hw', effectOf_exp, effectOf_exp,
      setIfInBounds_comm _ hne]
  have hwi : (Instr.exp i).wf = true := decide_eq_true hi
  have hwj : (Instr.exp j).wf = true := decide_eq_true hj
  refine ⟨_, execSeq_pair hwi hwj hri (readable_effectOf_exp hi.2 hrj), ?_⟩
  rw [execSeq_pair hwj hwi hrj (readable_effectOf_exp hj.2 hri), hcomm]

/-- Settles O54: the round reads and writes nothing that EXP writes, and EXP nothing that the round writes. -/
theorem expansionCommutesWithARound : Obligations.ExpansionCommutesWithARound := by
  intro s i r hi hr hir hri hrr
  have hne : i.toNat ≠ r.toNat := fun h => hir (BitVec.eq_of_toNat_eq h)
  have hword : (effectOf (.exp i) s).wVal r.toNat = s.wVal r.toNat := by
    rw [State.wVal, wElem_effectOf_exp hi.2, if_neg hne]
    rfl
  have hregs : (effectOf (.exp i) s).regs = s.regs := rfl
  have hexpanded : (effectOf (.rnd r) s).expandedWord i.toNat = s.expandedWord i.toNat := rfl
  have hcomm : effectOf (.exp i) (effectOf (.rnd r) s) = effectOf (.rnd r) (effectOf (.exp i) s) := by
    rw [effectOf_exp i (effectOf _ _), effectOf_rnd r (effectOf _ _), hword, hregs, hexpanded, effectOf_exp,
      effectOf_rnd]
  have hwi : (Instr.exp i).wf = true := decide_eq_true hi
  have hwr : (Instr.rnd r).wf = true := decide_eq_true hr
  refine ⟨_, execSeq_pair hwi hwr hri (readable_effectOf_exp hi.2 hrr), ?_⟩
  rw [execSeq_pair hwr hwi hrr (readable_exp_effectOf_rnd hri), hcomm]

end Sys2Proof.Laws
end

section
/-! Control and time do not depend on data (42 R116, 70 R177). -/
namespace Sys2Proof.Laws
open Sys2Proof.Machine Sys2Proof.Safety

/-- After a START, ignored or not, a call is running (44 R138). -/
theorem busy_effectOf_start (s : State) : (effectOf .start s).busy = true := by
  cases hb : s.busy with
  | true => rw [effectOf_start_busy hb, hb]
  | false => rw [effectOf_start_idle hb]

/-- The two states agree on what decides which instructions run: the step counter, `BUSY` and the events to come. -/
structure SameControl (s s' : State) : Prop where
  pc : s.pc = s'.pc
  busy : s.busy = s'.busy
  agenda : s.agenda = s'.agenda

namespace SameControl

variable {s s' t t' : State}

theorem nextEvent (h : SameControl s s') : nextEvent s = nextEvent s' := by
  rw [Safety.nextEvent, Safety.nextEvent, h.agenda]

theorem performed (h : SameControl s s') : performed s = performed s' := by
  have hfetched : s.fetched = s'.fetched := by simp only [State.fetched, h.pc]
  rw [Safety.performed, Safety.performed, h.nextEvent, h.busy, hfetched]

theorem afterEvent (h : SameControl s s') : SameControl (afterEvent s) (afterEvent s') :=
  ⟨h.pc, h.busy, congrArg List.tail h.agenda⟩

/-- An instruction leaves the step counter and `BUSY` as it finds them or as it alone decides. -/
theorem effect (h : SameControl s s') (i : Instr) : SameControl (effectOf i s) (effectOf i s') := by
  have hagenda : (effectOf i s).agenda = (effectOf i s').agenda := by simpa using h.agenda
  by_cases hh : i = .halt
  · subst hh
    exact ⟨h.pc, rfl, hagenda⟩
  by_cases hs : i = .start
  · subst hs
    refine ⟨?_, (busy_effectOf_start s).trans (busy_effectOf_start s').symm, hagenda⟩
    rw [effectOf_start_pc, effectOf_start_pc, h.busy, h.pc]
  · obtain ⟨hpc, hbusy⟩ := effectOf_pc_busy hh hs s
    obtain ⟨hpc', hbusy'⟩ := effectOf_pc_busy hh hs s'
    exact ⟨by rw [hpc, hpc', h.pc], by rw [hbusy, hbusy', h.busy], hagenda⟩

end SameControl

/-- What a step that performs no instruction does to the step counter, `BUSY` and the events to come: reset clears the
first two, and nothing else touches them. -/
theorem step_control_of_performed_none {s t : State} (h : step s = .next t) (hp : performed s = none) :
    SameControl t (if nextEvent s = .reset then (afterEvent s).applyReset else afterEvent s) := by
  obtain ⟨i, hi, -⟩ | ⟨-, hev, rfl⟩ | ⟨-, op, hev, rfl⟩ | ⟨-, hev, -, rfl⟩ := step_next_cases h
  · simp [hp] at hi
  · rw [if_pos hev]
    exact ⟨rfl, rfl, rfl⟩
  · rw [if_neg (by simp [hev]), hostAccess_eq]
    exact ⟨rfl, rfl, rfl⟩
  · rw [if_neg (by simp [hev])]
    exact ⟨rfl, rfl, rfl⟩

theorem SameControl.step {s s' t t' : State} (h : SameControl s s') (ht : step s = .next t)
    (ht' : Machine.step s' = .next t') : SameControl t t' := by
  cases hp : Safety.performed s with
  | some i =>
    rw [step_eq_effectOf ht hp, step_eq_effectOf ht' (h.performed ▸ hp)]
    exact h.afterEvent.effect i
  | none =>
    obtain ⟨hpc, hbusy, hagenda⟩ := step_control_of_performed_none ht hp
    obtain ⟨hpc', hbusy', hagenda'⟩ := step_control_of_performed_none ht' (h.performed ▸ hp)
    have hsame : SameControl
        (if Safety.nextEvent s = .reset then (Laws.afterEvent s).applyReset else Laws.afterEvent s)
        (if Safety.nextEvent s' = .reset then (Laws.afterEvent s').applyReset else Laws.afterEvent s') := by
      rw [← h.nextEvent]
      split
      · exact ⟨rfl, rfl, h.afterEvent.agenda⟩
      · exact h.afterEvent
    exact ⟨(hpc.trans hsame.pc).trans hpc'.symm, (hbusy.trans hsame.busy).trans hbusy'.symm,
      (hagenda.trans hsame.agenda).trans hagenda'.symm⟩

/-- Runs from states that agree on control perform the same instructions and end agreeing on control. -/
theorem SameControl.run {n : Nat} {s s' t t' : State} (h : SameControl s s') (ht : runSteps n s = .next t)
    (ht' : runSteps n s' = .next t') : instrTrace n s = instrTrace n s' ∧ SameControl t t' := by
  induction n generalizing s s' with
  | zero =>
    cases ht
    cases ht'
    exact ⟨rfl, h⟩
  | succ n ih =>
    obtain ⟨u, hu, hrun⟩ := exists_of_runSteps_succ ht
    obtain ⟨u', hu', hrun'⟩ := exists_of_runSteps_succ ht'
    obtain ⟨htrace, hend⟩ := ih (h.step hu hu') hrun hrun'
    exact ⟨by rw [instrTrace_succ hu, instrTrace_succ hu', h.performed, htrace], hend⟩

/-- Settles O55: the time of a run is a function of the instructions it performs (logs 15 and 24). -/
theorem controlAndTimeIgnoreData : Obligations.ControlAndTimeIgnoreData := by
  intro n s s' t t' hpc hbusy hagenda ht ht'
  obtain ⟨htrace, hend⟩ := SameControl.run ⟨hpc, hbusy, hagenda⟩ ht ht'
  exact ⟨htrace, by rw [runDuration, runDuration, htrace], hend.pc, hend.busy, hend.agenda⟩

end Sys2Proof.Laws
end

section
/-! Several blocks (60 R160, log 17). -/
namespace Sys2Proof.Laws
open Sys2Proof.Machine Sys2Proof.Safety

/-- A step of the block at `i` changes that block only. -/
theorem getElem?_stepInstance (cs : List State) (i j : Nat) :
    (stepInstance cs i)[j]? = if i = j then cs[j]?.map stepOrStay else cs[j]? := by
  induction cs generalizing i j with
  | nil => simp [stepInstance]
  | cons c cs ih =>
    cases i with
    | zero => cases j <;> simp [stepInstance]
    | succ i =>
      cases j with
      | zero => simp [stepInstance]
      | succ j => simpa [stepInstance] using ih i j

/-- Settles O56: each entry of the order is a step of the block at `j` or leaves it. -/
theorem instancesShareNothing : Obligations.InstancesShareNothing := by
  intro order cs j
  induction order generalizing cs with
  | nil =>
    cases hc : cs[j]? <;> simp [runInstances, runAlone, hc]
  | cons i order ih =>
    rw [runInstances, ih, getElem?_stepInstance]
    by_cases hij : i = j
    · subst hij
      rw [if_pos rfl, List.count_cons_self, Option.map_map]
      rfl
    · rw [if_neg hij, List.count_cons_of_ne hij]

end Sys2Proof.Laws
end
